-- ==== Sys2Proof/Word.lean ====
section
/-! DEFINITION. The bit vectors of the hardware: bytes, 16-bit words, the 4-bit and 12-bit fields of an instruction
(spec/00_scope.md R7, R8, spec/30_encoding.md R71). All numbers are unsigned. -/

namespace Sys2Proof

/-- An 8-bit register, timer, memory byte or immediate NN (R8). -/
abbrev Byte := BitVec 8

/-- A 16-bit instruction word, PC, I or stack slot (R22, R23, R25, R70). -/
abbrev Word := BitVec 16

/-- A 4-bit field: a register index X or Y, a sprite height N, a key code (R71, R73, R219). -/
abbrev Nibble := BitVec 4

/-- A 12-bit address field NNN (R71). -/
abbrev Addr := BitVec 12

end Sys2Proof
end

