-- ==== Sys2Proof/Config.lean ====
section
/-! DEFINITION. What the implementation fixes (spec/00_scope.md R5) and the one value the spec leaves free on every
use (the random byte, R44, R187). The OPEN parameter FONT (R6, R53) is plain data of the memory, see
Sys2Proof/Machine/State.lean and notes/assumptions/4.md. -/

namespace Sys2Proof.Config

/-- MEM_SIZE (R5): bytes of memory. -/
def memSize : Nat := 4096

/-- ROM_BASE (R5): load address of the ROM image. -/
def romBase : Nat := 512

/-- ROM_MAX (R5): the longest ROM image, 4096 - 512 bytes. -/
def romMax : Nat := memSize - romBase

/-- FONT_BASE (R5): first address of the font region. -/
def fontBase : Nat := 0

/-- FONT_LEN (R5): bytes of font data, 16 sprites of 5 bytes. -/
def fontLen : Nat := 80

/-- Bytes of one font sprite (R53). -/
def fontSpriteLen : Nat := 5

/-- FLAG_REG (R5): the index of VF. -/
def flagReg : Nibble := 15#4

/-- The byte drawn by the RND execution that the counter numbers: a free value, nothing is known of it (R187, D26).
DESIGN CHOICE (safe), notes/assumptions/3.md. -/
opaque randomByte : Nat → Byte

end Sys2Proof.Config
end

