-- ==== Sys2Proof/Syntax.lean ====
section
/-! DEFINITION. The 34 instructions of spec/30_encoding.md R75, one constructor per row, in the table's order.
Operands are the fields of the word (R71); their types are exactly the fields' widths, so every term is an instruction. -/

namespace Sys2Proof

/-- One constructor per row of the opcode map (R75). -/
inductive Instr where
  /-- 00E0, clear screen (R160). -/
  | cls
  /-- 00EE, return (R100). -/
  | ret
  /-- 1NNN, jump (R101). -/
  | jp (nnn : Addr)
  /-- 2NNN, call (R102). -/
  | call (nnn : Addr)
  /-- 3XNN, skip if equal, immediate (R103). -/
  | seImm (x : Nibble) (nn : Byte)
  /-- 4XNN, skip if not equal, immediate (R104). -/
  | sneImm (x : Nibble) (nn : Byte)
  /-- 5XY0, skip if registers equal (R105). -/
  | seReg (x y : Nibble)
  /-- 9XY0, skip if registers differ (R106). -/
  | sneReg (x y : Nibble)
  /-- 6XNN, load immediate (R120). -/
  | ldImm (x : Nibble) (nn : Byte)
  /-- 7XNN, add immediate (R121). -/
  | addImm (x : Nibble) (nn : Byte)
  /-- 8XY0, assign (R122). -/
  | ldReg (x y : Nibble)
  /-- 8XY1, bitwise OR (R123). -/
  | orReg (x y : Nibble)
  /-- 8XY2, bitwise AND (R124). -/
  | andReg (x y : Nibble)
  /-- 8XY3, bitwise exclusive OR (R125). -/
  | xorReg (x y : Nibble)
  /-- 8XY4, add with carry out (R126). -/
  | addReg (x y : Nibble)
  /-- 8XY5, subtract with not-borrow (R127). -/
  | subReg (x y : Nibble)
  /-- 8XY6, shift right by one (R128). The Y field is part of the word and has no effect. -/
  | shr (x y : Nibble)
  /-- 8XY7, reverse subtract with not-borrow (R129). -/
  | subnReg (x y : Nibble)
  /-- 8XYE, shift left by one (R130). The Y field is part of the word and has no effect. -/
  | shl (x y : Nibble)
  /-- ANNN, load index (R140). -/
  | ldI (nnn : Addr)
  /-- BNNN, indexed jump (R107). -/
  | jpV0 (nnn : Addr)
  /-- CXNN, masked random (R187). -/
  | rnd (x : Nibble) (nn : Byte)
  /-- DXYN, draw sprite (R161). -/
  | drw (x y n : Nibble)
  /-- EX9E, skip if key pressed (R180). -/
  | skp (x : Nibble)
  /-- EXA1, skip if key not pressed (R181). -/
  | sknp (x : Nibble)
  /-- FX07, read the delay timer (R184). -/
  | ldVxDt (x : Nibble)
  /-- FX15, set the delay timer (R185). -/
  | ldDtVx (x : Nibble)
  /-- FX18, set the sound timer (R186). -/
  | ldStVx (x : Nibble)
  /-- FX0A, wait for a key press (R182). -/
  | ldVxK (x : Nibble)
  /-- FX1E, add to index (R141). -/
  | addI (x : Nibble)
  /-- FX29, font address lookup (R142). -/
  | ldF (x : Nibble)
  /-- FX33, decimal decomposition (R143). -/
  | ldB (x : Nibble)
  /-- FX55, register block store (R144); X is taken as a count. -/
  | storeRegs (x : Nibble)
  /-- FX65, register block load (R145); X is taken as a count. -/
  | loadRegs (x : Nibble)
  deriving DecidableEq, Repr

end Sys2Proof
end

