-- ==== Sys2Proof/WellFormed.lean ====
section
/-! DEFINITION. What input is well formed. An instruction's operands carry their widths in their types, so every term
of Instr is one of the machine's instructions (spec/30_encoding.md R73: "X and Y are used directly as register indices
0..15; every value is legal") and there is nothing to refuse there. What can be ill formed is raw input: a 16-bit word
that matches no row of the opcode map (R75, R76), and a ROM image that is too long (spec/70_reset_and_hazards.md R241).
The map is written here as the spec's table of mask and match, apart from the decode tree of Decode.lean, which it checks. -/

namespace Sys2Proof

/-- A row of the opcode map: the word w selects it when w AND mask = pattern (R75). -/
structure OpcodeRow where
  mask : Word
  pattern : Word
  deriving DecidableEq, Repr

/-- The word selects the row (R75). -/
def OpcodeRow.selects (r : OpcodeRow) (w : Word) : Bool :=
  (w &&& r.mask) == r.pattern

/-- Rows 1 to 10 of R75. -/
def opcodeRowsA : List OpcodeRow :=
  [⟨0xFFFF#16, 0x00E0#16⟩, ⟨0xFFFF#16, 0x00EE#16⟩, ⟨0xF000#16, 0x1000#16⟩, ⟨0xF000#16, 0x2000#16⟩,
   ⟨0xF000#16, 0x3000#16⟩, ⟨0xF000#16, 0x4000#16⟩, ⟨0xF00F#16, 0x5000#16⟩, ⟨0xF00F#16, 0x9000#16⟩,
   ⟨0xF000#16, 0x6000#16⟩, ⟨0xF000#16, 0x7000#16⟩]

/-- Rows 11 to 19 of R75, the ALU group. -/
def opcodeRowsB : List OpcodeRow :=
  [⟨0xF00F#16, 0x8000#16⟩, ⟨0xF00F#16, 0x8001#16⟩, ⟨0xF00F#16, 0x8002#16⟩, ⟨0xF00F#16, 0x8003#16⟩,
   ⟨0xF00F#16, 0x8004#16⟩, ⟨0xF00F#16, 0x8005#16⟩, ⟨0xF00F#16, 0x8006#16⟩, ⟨0xF00F#16, 0x8007#16⟩,
   ⟨0xF00F#16, 0x800E#16⟩]

/-- Rows 20 to 34 of R75. -/
def opcodeRowsC : List OpcodeRow :=
  [⟨0xF000#16, 0xA000#16⟩, ⟨0xF000#16, 0xB000#16⟩, ⟨0xF000#16, 0xC000#16⟩, ⟨0xF000#16, 0xD000#16⟩,
   ⟨0xF0FF#16, 0xE09E#16⟩, ⟨0xF0FF#16, 0xE0A1#16⟩, ⟨0xF0FF#16, 0xF007#16⟩, ⟨0xF0FF#16, 0xF015#16⟩,
   ⟨0xF0FF#16, 0xF018#16⟩, ⟨0xF0FF#16, 0xF00A#16⟩, ⟨0xF0FF#16, 0xF01E#16⟩, ⟨0xF0FF#16, 0xF029#16⟩,
   ⟨0xF0FF#16, 0xF033#16⟩, ⟨0xF0FF#16, 0xF055#16⟩, ⟨0xF0FF#16, 0xF065#16⟩]

/-- The opcode map of R75, 34 rows in its order. -/
def opcodeTable : List OpcodeRow :=
  opcodeRowsA ++ opcodeRowsB ++ opcodeRowsC

/-- A legal word: some row of the opcode map selects it (R75, R76). -/
def wordWellFormed (w : Word) : Bool :=
  opcodeTable.any (fun r => r.selects w)

/-- A ROM image the reset accepts: at most 3584 bytes, of any length, odd or zero included (R205, R241). -/
def romWellFormed (rom : List Byte) : Bool :=
  decide (rom.length ≤ Config.romMax)

end Sys2Proof
end

