-- ==== Sys2Proof/Decode.lean ====
section
/-! DEFINITION. The decode tree of spec/30_encoding.md R74, total on every word and on any bytes, rejecting by the name
of the illegal set (R76), and after it the encoder of R75. The numeric encoding is PRESUMED: the spec marks it as
general knowledge (D1; notes/assumptions/7.md). -/

namespace Sys2Proof

/-- The six sets of illegal words (R76). -/
inductive IllegalSet where
  /-- 0NNN other than 00E0 and 00EE (D2). -/
  | zeroGroup
  /-- 5XYn with n ≠ 0 (D3). -/
  | seRegGroup
  /-- 8XYn with n in 8..D or F. -/
  | aluGroup
  /-- 9XYn with n ≠ 0 (D3). -/
  | sneRegGroup
  /-- EXkk with kk not 9E or A1. -/
  | keyGroup
  /-- FXkk with kk none of 07, 0A, 15, 18, 1E, 29, 33, 55, 65. -/
  | miscGroup
  deriving DecidableEq, Repr

/-- What decode answers: an instruction, `no match` with the set the word is in (R74, R76), or too few bytes. -/
inductive Decoded where
  | instr (i : Instr)
  | illegal (g : IllegalSet)
  | truncated
  deriving DecidableEq, Repr

/-- T = op[15:12] (R71). -/
def opTop (op : Word) : Nibble := op.extractLsb' 12 4

/-- X = op[11:8] (R71). -/
def opX (op : Word) : Nibble := op.extractLsb' 8 4

/-- Y = op[7:4] (R71). -/
def opY (op : Word) : Nibble := op.extractLsb' 4 4

/-- N = op[3:0] (R71). -/
def opN (op : Word) : Nibble := op.extractLsb' 0 4

/-- NN = op[7:0] (R71). -/
def opNN (op : Word) : Byte := op.extractLsb' 0 8

/-- NNN = op[11:0] (R71). -/
def opNNN (op : Word) : Addr := op.extractLsb' 0 12

/-- Top nibble 0 (R74). -/
def decodeZero (op : Word) : Decoded :=
  match op.toNat with
  | 0x00E0 => .instr .cls
  | 0x00EE => .instr .ret
  | _ => .illegal .zeroGroup

/-- Top nibble 8: the ALU group, by its 4-bit sub-code (R74). -/
def decodeAlu (op : Word) : Decoded :=
  match (opN op).toNat with
  | 0x0 => .instr (.ldReg (opX op) (opY op))
  | 0x1 => .instr (.orReg (opX op) (opY op))
  | 0x2 => .instr (.andReg (opX op) (opY op))
  | 0x3 => .instr (.xorReg (opX op) (opY op))
  | 0x4 => .instr (.addReg (opX op) (opY op))
  | 0x5 => .instr (.subReg (opX op) (opY op))
  | 0x6 => .instr (.shr (opX op) (opY op))
  | 0x7 => .instr (.subnReg (opX op) (opY op))
  | 0xE => .instr (.shl (opX op) (opY op))
  | _ => .illegal .aluGroup

/-- Top nibble E: the key skips, by the low byte (R74). -/
def decodeKey (op : Word) : Decoded :=
  match (opNN op).toNat with
  | 0x9E => .instr (.skp (opX op))
  | 0xA1 => .instr (.sknp (opX op))
  | _ => .illegal .keyGroup

/-- Top nibble F, by the low byte (R74). -/
def decodeMisc (op : Word) : Decoded :=
  match (opNN op).toNat with
  | 0x07 => .instr (.ldVxDt (opX op))
  | 0x0A => .instr (.ldVxK (opX op))
  | 0x15 => .instr (.ldDtVx (opX op))
  | 0x18 => .instr (.ldStVx (opX op))
  | 0x1E => .instr (.addI (opX op))
  | 0x29 => .instr (.ldF (opX op))
  | 0x33 => .instr (.ldB (opX op))
  | 0x55 => .instr (.storeRegs (opX op))
  | 0x65 => .instr (.loadRegs (opX op))
  | _ => .illegal .miscGroup

/-- Top nibble 5 and top nibble 9: the sub-code must be 0 (R74, D3). -/
def decodeSubZero (op : Word) (i : Instr) (g : IllegalSet) : Decoded :=
  match (opN op).toNat with
  | 0 => .instr i
  | _ => .illegal g

/-- The decode tree (R74): a function of the 16 bits alone. -/
def decodeWord (op : Word) : Decoded :=
  match (opTop op).toNat with
  | 0x0 => decodeZero op
  | 0x1 => .instr (.jp (opNNN op))
  | 0x2 => .instr (.call (opNNN op))
  | 0x3 => .instr (.seImm (opX op) (opNN op))
  | 0x4 => .instr (.sneImm (opX op) (opNN op))
  | 0x5 => decodeSubZero op (.seReg (opX op) (opY op)) .seRegGroup
  | 0x6 => .instr (.ldImm (opX op) (opNN op))
  | 0x7 => .instr (.addImm (opX op) (opNN op))
  | 0x8 => decodeAlu op
  | 0x9 => decodeSubZero op (.sneReg (opX op) (opY op)) .sneRegGroup
  | 0xA => .instr (.ldI (opNNN op))
  | 0xB => .instr (.jpV0 (opNNN op))
  | 0xC => .instr (.rnd (opX op) (opNN op))
  | 0xD => .instr (.drw (opX op) (opY op) (opN op))
  | 0xE => decodeKey op
  | _ => decodeMisc op

/-- The 16-bit word of two bytes, the first byte the more significant (R55). -/
def wordOfBytes (b0 b1 : Byte) : Word := b0 ++ b1

/-- Decode on any bytes: the first two are the word, the rest is not looked at (R55, R78). -/
def decode : List Byte → Decoded
  | b0 :: b1 :: _ => decodeWord (wordOfBytes b0 b1)
  | _ => .truncated

/-- The instruction of an answer, if it is one. -/
def Decoded.toOption : Decoded → Option Instr
  | .instr i => some i
  | .illegal _ => none
  | .truncated => none

/-- The first byte in memory of a word: bits 15..8 (R55). -/
def wordByte0 (op : Word) : Byte := op.extractLsb' 8 8

/-- The second byte in memory of a word: bits 7..0 (R55). -/
def wordByte1 (op : Word) : Byte := op.extractLsb' 0 8

/-- The instruction word of a table row's number: bit 0 is the word's least significant bit, the bits from nbits on
are 0, and the instruction is one word (R78). -/
def tableWord (nbits w : Nat) : Word := BitVec.ofNat 16 (w % 2 ^ nbits)

/-- The instruction the decoder reads from a table row's word laid out as the hardware stores it (R55). -/
def decodeTableWord (nbits w : Nat) : Option Instr :=
  (decode [wordByte0 (tableWord nbits w), wordByte1 (tableWord nbits w)]).toOption

/-- Format ADDR (R72). -/
def fmtAddr (t : Nibble) (nnn : Addr) : Word := t ++ nnn

/-- Format REG_IMM (R72). -/
def fmtRegImm (t x : Nibble) (nn : Byte) : Word := (t ++ x) ++ nn

/-- Formats REG_REG, with its sub-code, and REG_REG_N, with its height (R72). -/
def fmtRegReg (t x y n : Nibble) : Word := (t ++ x) ++ (y ++ n)

/-- The word of an instruction, from the patterns of R75. -/
def encode : Instr → Word
  | .cls => 0x00E0#16
  | .ret => 0x00EE#16
  | .jp nnn => fmtAddr 0x1#4 nnn
  | .call nnn => fmtAddr 0x2#4 nnn
  | .seImm x nn => fmtRegImm 0x3#4 x nn
  | .sneImm x nn => fmtRegImm 0x4#4 x nn
  | .seReg x y => fmtRegReg 0x5#4 x y 0x0#4
  | .sneReg x y => fmtRegReg 0x9#4 x y 0x0#4
  | .ldImm x nn => fmtRegImm 0x6#4 x nn
  | .addImm x nn => fmtRegImm 0x7#4 x nn
  | .ldReg x y => fmtRegReg 0x8#4 x y 0x0#4
  | .orReg x y => fmtRegReg 0x8#4 x y 0x1#4
  | .andReg x y => fmtRegReg 0x8#4 x y 0x2#4
  | .xorReg x y => fmtRegReg 0x8#4 x y 0x3#4
  | .addReg x y => fmtRegReg 0x8#4 x y 0x4#4
  | .subReg x y => fmtRegReg 0x8#4 x y 0x5#4
  | .shr x y => fmtRegReg 0x8#4 x y 0x6#4
  | .subnReg x y => fmtRegReg 0x8#4 x y 0x7#4
  | .shl x y => fmtRegReg 0x8#4 x y 0xE#4
  | .ldI nnn => fmtAddr 0xA#4 nnn
  | .jpV0 nnn => fmtAddr 0xB#4 nnn
  | .rnd x nn => fmtRegImm 0xC#4 x nn
  | .drw x y n => fmtRegReg 0xD#4 x y n
  | .skp x => fmtRegImm 0xE#4 x 0x9E#8
  | .sknp x => fmtRegImm 0xE#4 x 0xA1#8
  | .ldVxDt x => fmtRegImm 0xF#4 x 0x07#8
  | .ldDtVx x => fmtRegImm 0xF#4 x 0x15#8
  | .ldStVx x => fmtRegImm 0xF#4 x 0x18#8
  | .ldVxK x => fmtRegImm 0xF#4 x 0x0A#8
  | .addI x => fmtRegImm 0xF#4 x 0x1E#8
  | .ldF x => fmtRegImm 0xF#4 x 0x29#8
  | .ldB x => fmtRegImm 0xF#4 x 0x33#8
  | .storeRegs x => fmtRegImm 0xF#4 x 0x55#8
  | .loadRegs x => fmtRegImm 0xF#4 x 0x65#8

end Sys2Proof
end

