-- ==== Sys2Proof/Machine/ResetValues.lean ====
section
/-! DEFINITION. The values State.reset is made of (spec/10_state.md R43, spec/20_memory.md R53), kept here so that each
stands in one place. -/

namespace Sys2Proof.Machine

/-- Sprites 0 to 3 of the default font (R53). -/
def fontBytes0 : List Byte :=
  [0xF0#8, 0x90#8, 0x90#8, 0x90#8, 0xF0#8, 0x20#8, 0x60#8, 0x20#8, 0x20#8, 0x70#8,
   0xF0#8, 0x10#8, 0xF0#8, 0x80#8, 0xF0#8, 0xF0#8, 0x10#8, 0xF0#8, 0x10#8, 0xF0#8]

/-- Sprites 4 to 7 of the default font (R53). -/
def fontBytes4 : List Byte :=
  [0x90#8, 0x90#8, 0xF0#8, 0x10#8, 0x10#8, 0xF0#8, 0x80#8, 0xF0#8, 0x10#8, 0xF0#8,
   0xF0#8, 0x80#8, 0xF0#8, 0x90#8, 0xF0#8, 0xF0#8, 0x10#8, 0x20#8, 0x40#8, 0x40#8]

/-- Sprites 8 to B of the default font (R53). -/
def fontBytes8 : List Byte :=
  [0xF0#8, 0x90#8, 0xF0#8, 0x90#8, 0xF0#8, 0xF0#8, 0x90#8, 0xF0#8, 0x10#8, 0xF0#8,
   0xF0#8, 0x90#8, 0xF0#8, 0x90#8, 0x90#8, 0xE0#8, 0x90#8, 0xE0#8, 0x90#8, 0xE0#8]

/-- Sprites C to F of the default font (R53). -/
def fontBytesC : List Byte :=
  [0xF0#8, 0x80#8, 0x80#8, 0x80#8, 0xF0#8, 0xE0#8, 0x90#8, 0xE0#8, 0x90#8, 0xE0#8,
   0xF0#8, 0x80#8, 0xF0#8, 0x80#8, 0xF0#8, 0xF0#8, 0x80#8, 0xF0#8, 0x80#8, 0x80#8]

/-- The default of the OPEN parameter FONT (R53, D15). PRESUMED, unsafe for a claim about lit pixels that rests on it:
the spec marks the bytes as general knowledge (notes/assumptions/4.md). -/
def defaultFont : Vector Byte 80 :=
  ⟨⟨fontBytes0 ++ fontBytes4 ++ fontBytes8 ++ fontBytesC⟩, by decide⟩

/-- PC after reset: ROM_BASE (R43, R242). -/
def resetPc : Word := 512#16

/-- V[0] .. V[15] after reset: zero, the spec's decision D17 (R43; notes/assumptions/5.md). -/
def resetV : Vector Byte 16 := Vector.replicate 16 0#8

/-- I after reset: zero, the spec's decision D17 (R43; notes/assumptions/5.md). -/
def resetIndex : Word := 0#16

/-- SP after reset: zero, the spec's decision D6 (R24, R43; notes/assumptions/5.md). -/
def resetSp : Nibble := 0#4

/-- STACK after reset: zero, the spec's decision D17 (R43; notes/assumptions/5.md). -/
def resetStack : Vector Word 16 := Vector.replicate 16 0#16

/-- DT and ST after reset: zero, the spec's decision D17 (R43; notes/assumptions/5.md). -/
def resetTimer : Byte := 0#8

/-- KEYS after reset: all false, the spec's decision D17 (R43; notes/assumptions/5.md). -/
def resetKeys : Vector Bool 16 := Vector.replicate 16 false

/-- Every row of FB after reset: all false, the spec's decision D17 (R43; notes/assumptions/5.md). -/
def resetRow : Vector Bool 64 := Vector.replicate 64 false

end Sys2Proof.Machine
end

