-- ==== Sys2Proof/Machine/State.lean ====
section
/-! DEFINITION. The state of the machine (spec/10_state.md), the reasons a step can stop, and the state after reset.
Plain data throughout. -/

namespace Sys2Proof.Machine

/-- The four run-time faults of the hardware (spec/60_exceptions.md R200, codes 1 to 4). -/
inductive FaultKind where
  /-- Code 1: the fetched word matches no row of the opcode map (R201). -/
  | decodeFailure
  /-- Code 2: CALL with SP = 15 (R202). -/
  | stackOverflow
  /-- Code 3: RET with SP = 0 (R203). -/
  | stackUnderflow
  /-- Code 4: SKP, SKNP or LD F with V[X] > 15 (R204). -/
  | operandRange
  deriving DecidableEq, Repr

/-- Why the engine is halted (R31, R200): a fault, or the host's Cancel (code 6). LoadFailure, code 5, is no cause of a
halt: it refuses a reset (R205), see `Refusal.loadFailure`. -/
inductive StopCause where
  | fault (k : FaultKind)
  | cancelled
  deriving DecidableEq, Repr

/-- RUN, the run state of the engine (R31). -/
inductive RunState where
  | running
  /-- A key wait in progress, with its destination register. -/
  | waitKey (x : Nibble)
  | halted (c : StopCause)
  deriving DecidableEq, Repr

/-- FAULT, the fault record (R32): the cause, the address A of the faulting instruction, the word op. -/
structure FaultRecord where
  cause : FaultKind
  addr  : Word
  op    : Word
  deriving DecidableEq, Repr

/-- The one kind of output event (R33, R164). -/
inductive OutputEvent where
  | displayChanged
  deriving DecidableEq, Repr

/-- One atomic move of one of the three agents (R40, R41, R222). -/
inductive Move where
  /-- The engine's step: one instruction cycle (R70). -/
  | engine
  /-- The timer engine's step (R213). -/
  | tick
  /-- The host sets or clears KEYS[k] (R218). -/
  | setKey (k : Nibble) (down : Bool)
  /-- The host delivers KeyPress(k) (R219). -/
  | keyPress (k : Nibble)
  /-- The host cancels (R211). -/
  | cancel
  /-- The host resets with a ROM image (R240). -/
  | reset (rom : List Byte)
  deriving DecidableEq, Repr

/-- MEM (R50): the font parameter, which the reset contents are made of, and the bytes that differ from the reset
contents, at strictly rising addresses (notes/assumptions/4.md, notes/assumptions/11.md). -/
structure Memory where
  font  : Vector Byte 80
  cells : List Host.Cell
  deriving DecidableEq, Repr

/-- FB (R29): 32 rows of 64 cells; FB[x][y] is cell x of row y. -/
structure Framebuffer where
  rows : Vector (Vector Bool 64) 32
  deriving DecidableEq, Repr

/-- The machine's state: what 10_state.md lists, then the model's own three fields. -/
structure State where
  /-- V[0] .. V[15] (R20). V[15] is VF (R21). -/
  v : Vector Byte 16
  /-- I (R22). -/
  index : Word
  /-- PC (R23). -/
  pc : Word
  /-- SP, the most recently pushed slot (R24). -/
  sp : Nibble
  /-- STACK[0] .. STACK[15] (R25). -/
  stack : Vector Word 16
  /-- DT (R26). -/
  dt : Byte
  /-- ST (R27). -/
  st : Byte
  /-- KEYS[0] .. KEYS[15] (R28). -/
  keys : Vector Bool 16
  /-- FB (R29). -/
  fb : Framebuffer
  /-- MEM (R30). -/
  mem : Memory
  /-- RUN (R31). -/
  run : RunState
  /-- FAULT (R32): none is "invalid". -/
  fault : Option FaultRecord
  /-- The model's own: how many bytes RND has drawn (R187; notes/assumptions/3.md). -/
  draws : Nat
  /-- The model's own: the agents' moves to come, the next one first; when it is empty the engine moves
  (R41; notes/assumptions/1.md). -/
  schedule : List Move
  /-- The model's own: the output events so far, the latest first (R33; notes/assumptions/8.md). -/
  trace : List OutputEvent
  deriving DecidableEq, Repr

/-- Why the machine stops with no next state. Both are the spec's stuck states (93_implementation_defined.md U21, U22):
the engine is to move and has no step. DESIGN CHOICE, safe (notes/assumptions/2.md). -/
inductive Fault where
  /-- Raised by the engine's move in RUN = WaitKey(x) (R182: the engine performs no cycle until KeyPress, Cancel or
  Reset). Safe. -/
  | waitingForKey (x : Nibble)
  /-- Raised by the engine's move in RUN = Halted(c) (R208: in Halted the engine has no step). Safe. -/
  | engineHalted (c : StopCause)
  deriving DecidableEq, Repr

/-- What the model gives no machine for. -/
inductive Refusal where
  /-- Raised by no instruction: every instruction has a meaning. -/
  | notModelled (mnemonic : String)
  /-- Raised by the host's Reset with a ROM longer than 3584 bytes: "refused with LoadFailure and no machine results"
  (R205, R241). Its code is 5 (R200, `Refusal.code`). Safe. -/
  | loadFailure
  deriving DecidableEq, Repr

/-- The machine right after reset with an empty ROM image (R43, R240; notes/assumptions/16.md). -/
def State.reset : State where
  v := resetV
  index := resetIndex
  pc := resetPc
  sp := resetSp
  stack := resetStack
  dt := resetTimer
  st := resetTimer
  keys := resetKeys
  fb := ⟨Vector.replicate 32 resetRow⟩
  mem := ⟨defaultFont, []⟩
  run := .running
  fault := none
  draws := 0
  schedule := []
  trace := []

end Sys2Proof.Machine
end

