-- ==== Sys2Proof/Machine/Ops.lean ====
section
/-! DEFINITION. The named operations over memory, registers, the framebuffer and the outputs, and the hardware's one
trap entry, `raise` (spec/20_memory.md, spec/10_state.md, spec/43_display.md, spec/60_exceptions.md). There is no return
from a trap beside it: R208, "There is no return-from-trap instruction". -/

namespace Sys2Proof.Machine

/-! ### Memory -/

/-- The byte an address that no cell lists reads as: the reset contents before a ROM is loaded, which are FONT at
0..79 and zero elsewhere (R43, R52; notes/assumptions/11.md). -/
def Memory.base (m : Memory) (a : Nat) : Byte :=
  if h : a < 80 then m.font[a] else 0#8

/-- The byte listed at an address, if one is. -/
def lookupCell (a : Nat) : List Host.Cell → Option Byte
  | [] => none
  | (k, b) :: cs => if k = a then some b else lookupCell a cs

/-- Lists a byte at an address, keeping the addresses rising. -/
def storeCell (a : Nat) (b : Byte) : List Host.Cell → List Host.Cell
  | [] => [(a, b)]
  | (k, c) :: cs =>
    if a < k then (a, b) :: (k, c) :: cs
    else if a = k then (a, b) :: cs
    else (k, c) :: storeCell a b cs

/-- Lists no byte at an address. -/
def eraseCell (a : Nat) : List Host.Cell → List Host.Cell
  | [] => []
  | (k, c) :: cs => if k = a then eraseCell a cs else (k, c) :: eraseCell a cs

/-- MEM[a]. -/
def Memory.read (m : Memory) (a : Nat) : Byte :=
  match lookupCell a m.cells with
  | some b => b
  | none => m.base a

/-- MEM[a] <- b, in canonical form: a byte equal to what an unlisted address reads as is not listed. -/
def Memory.write (m : Memory) (a : Nat) (b : Byte) : Memory :=
  if b = m.base a then { m with cells := eraseCell a m.cells }
  else { m with cells := storeCell a b m.cells }

/-- The canonical form: addresses strictly rising and inside the 4096 bytes, no cell equal to what its address reads
as unlisted. -/
abbrev Memory.wf (m : Memory) : Prop :=
  (m.cells.map Prod.fst).Pairwise (· < ·) ∧ ∀ c ∈ m.cells, c.1 < Config.memSize ∧ c.2 ≠ m.base c.1

/-- The address of byte k of a sequence at a 16-bit base: (base + k) mod 4096 (R51, R146). -/
def memAddr (base : Word) (k : Nat) : Nat := (base.toNat + k) % Config.memSize

/-- The word fetched at a PC: two byte reads, big-endian, each address wrapped on its own (R55). -/
def fetchWord (m : Memory) (pc : Word) : Word :=
  wordOfBytes (m.read (memAddr pc 0)) (m.read (memAddr pc 1))

/-- Bytes stored at ascending addresses from a, which the caller keeps inside memory (R241). -/
def Memory.loadImage (m : Memory) (a : Nat) : List Byte → Memory
  | [] => m
  | b :: bs => (m.write a b).loadImage (a + 1) bs

/-! ### Registers, stack, keys -/

/-- V[x] (R20). -/
def State.reg (s : State) (x : Nibble) : Byte := s.v[x.toNat]

/-- V[x] <- b (R20). -/
def State.setReg (s : State) (x : Nibble) (b : Byte) : State :=
  { s with v := s.v.set x.toNat b }

/-- STACK[k] (R25). -/
def State.slot (s : State) (k : Nibble) : Word := s.stack[k.toNat]

/-- STACK[k] <- w (R25). -/
def State.setSlot (s : State) (k : Nibble) (w : Word) : State :=
  { s with stack := s.stack.set k.toNat w }

/-- KEYS[k] (R28). -/
def State.key (s : State) (k : Nibble) : Bool := s.keys[k.toNat]

/-- PC <- (PC + 2) mod 65536: the advance of the cycle (R70) and, on top of it, a taken skip (R108). -/
def State.advance (s : State) : State := { s with pc := s.pc + 2#16 }

/-- Skips when the condition holds (R108). -/
def State.skipIf (s : State) (c : Bool) : State := if c then s.advance else s

/-- MemWrite(base + k, 1, b) (R9, R51). -/
def State.storeByte (s : State) (base : Word) (k : Nat) (b : Byte) : State :=
  { s with mem := s.mem.write (memAddr base k) b }

/-- MemRead(base + k, 1) (R9, R51). -/
def State.loadByte (s : State) (base : Word) (k : Nat) : Byte :=
  s.mem.read (memAddr base k)

/-- V[0] .. V[n-1] to memory at I, in ascending register order (R144). -/
def State.storeRange (s : State) : Nat → State
  | 0 => s
  | n + 1 => (s.storeRange n).storeByte s.index n (s.reg (BitVec.ofNat 4 n))

/-- Memory at I to V[0] .. V[n-1], in ascending register order (R145). -/
def State.loadRange (s : State) : Nat → State
  | 0 => s
  | n + 1 => (s.loadRange n).setReg (BitVec.ofNat 4 n) (s.loadByte s.index n)

/-! ### Framebuffer and sprite compositor -/

/-- FB[x][y] (R29). -/
def Framebuffer.cell (f : Framebuffer) (x : Fin 64) (y : Fin 32) : Bool := f.rows[y.val][x.val]

/-- FB[x][y] <- not FB[x][y] (R161). -/
def Framebuffer.flip (f : Framebuffer) (x : Fin 64) (y : Fin 32) : Framebuffer :=
  ⟨f.rows.set y.val (f.rows[y.val].set x.val (!f.cell x y))⟩

/-- All cells false (R160). -/
def Framebuffer.blank : Framebuffer := ⟨Vector.replicate 32 (Vector.replicate 64 false)⟩

/-- Some cell is true (R160). -/
def Framebuffer.anyLit (f : Framebuffer) : Bool := f.rows.toList.any fun r => r.toList.any id

/-- The column a sprite's column offset addresses, wrapping on every pixel (R162). -/
def spriteCol (x0 : Byte) (c : Nat) : Fin 64 := Fin.ofNat 64 (x0.toNat + c)

/-- The framebuffer row a sprite's row offset addresses, wrapping on every pixel (R162). -/
def spriteRow (y0 : Byte) (r : Nat) : Fin 32 := Fin.ofNat 32 (y0.toNat + r)

/-- Column offset c of a sprite byte is bit 7 - c: bit 7 is the leftmost pixel (R162). -/
def spriteBit (row : Byte) (c : Nat) : Bool := row.getLsbD (7 - c)

/-- The variables of the DRW loop (R161). -/
structure Blit where
  fb        : Framebuffer
  collision : Bool
  changed   : Bool
  deriving DecidableEq, Repr

/-- One pixel of the DRW loop (R161): a set bit toggles its cell and tests the cell's old value. -/
def blitBit (x0 y0 : Byte) (r : Nat) (row : Byte) (c : Nat) (b : Blit) : Blit :=
  if spriteBit row c then
    { fb := b.fb.flip (spriteCol x0 c) (spriteRow y0 r)
      collision := b.collision || b.fb.cell (spriteCol x0 c) (spriteRow y0 r)
      changed := true }
  else b

/-- The first n columns of one sprite row, in order (R161). -/
def blitCols (x0 y0 : Byte) (r : Nat) (row : Byte) : Nat → Blit → Blit
  | 0, b => b
  | n + 1, b => blitBit x0 y0 r row n (blitCols x0 y0 r row n b)

/-- The first n rows of a sprite in memory at a base address, in order, eight columns each (R161). -/
def blitRows (m : Memory) (base : Word) (x0 y0 : Byte) : Nat → Blit → Blit
  | 0, b => b
  | n + 1, b => blitCols x0 y0 n (m.read (memAddr base n)) 8 (blitRows m base x0 y0 n b)

/-- Emits DisplayChanged when a cell changed (R164). -/
def State.emitIf (s : State) (changed : Bool) : State :=
  if changed then { s with trace := .displayChanged :: s.trace } else s

/-! ### Faults -/

/-- `raise F(A, op)`, the hardware's only trap entry (R206): FAULT <- (F, A, op), RUN <- Halted(F), nothing else. PC has
been advanced, so A = PC - 2 modulo 65536 (R207; notes/assumptions/9.md). -/
def State.raise (s : State) (k : FaultKind) (op : Word) : State :=
  { s with fault := some ⟨k, s.pc - 2#16, op⟩, run := .halted (.fault k) }

/-- The code of a fault kind (R200, D23). -/
def FaultKind.code : FaultKind → Nat
  | .decodeFailure => 1
  | .stackOverflow => 2
  | .stackUnderflow => 3
  | .operandRange => 4

/-- The code of a stop cause (R200, D23). -/
def StopCause.code : StopCause → Nat
  | .fault k => k.code
  | .cancelled => 6

/-- The code of a refusal: LoadFailure, at reset, has code 5 (R200, R205, D23). The other refusal is the model's own and
has no code in the spec's table. -/
def Refusal.code : Refusal → Option Nat
  | .loadFailure => some 5
  | _ => none

/-! ### What the host reads -/

/-- The snapshot a host read gives (R222): FB, ST, RUN and FAULT. -/
structure HostView where
  fb    : Framebuffer
  st    : Byte
  run   : RunState
  fault : Option FaultRecord
  deriving DecidableEq, Repr

/-- A host read, the display port, the sound value and the status: one atomic look, no effect on the core
(R66, R220, R221, R222). -/
def hostView (s : State) : HostView := ⟨s.fb, s.st, s.run, s.fault⟩

end Sys2Proof.Machine
end

