-- ==== Sys2Proof/Machine/Operands.lean ====
section
/-! DEFINITION. The operand forms: zero-extended immediates (spec/30_encoding.md R73), a register value taken as a key
code or a digit (R180, R142), the font address (R142), the indexed jump's target (R107) and the decimal digits (R143). -/

namespace Sys2Proof.Machine

/-- zext_16 of an address field (R73). -/
def zextAddr (nnn : Addr) : Word := nnn.setWidth 16

/-- zext_16 of a register value (R107, R141). -/
def zextByte (b : Byte) : Word := b.setWidth 16

/-- zext_8 of a key code (R183). -/
def zextKey (k : Nibble) : Byte := k.setWidth 8

/-- A register value taken as a key code or digit: defined for 0..15 only (R142, R188, D13, D14). -/
def nibbleOperand (b : Byte) : Option Nibble :=
  if b.toNat ≤ 15 then some (b.setWidth 4) else none

/-- The address of a digit's font sprite: FONT_BASE + 5 * d (R142). -/
def fontAddr (d : Nibble) : Word :=
  BitVec.ofNat 16 (Config.fontBase + Config.fontSpriteLen * d.toNat)

/-- The target of JP V0 (R107). -/
def indexedTarget (nnn : Addr) (v0 : Byte) : Word := zextAddr nnn + zextByte v0

/-- The hundreds digit (R143). -/
def hundreds (b : Byte) : Byte := b / 100#8

/-- The tens digit (R143). -/
def tens (b : Byte) : Byte := (b / 10#8) % 10#8

/-- The ones digit (R143). -/
def ones (b : Byte) : Byte := b % 10#8

/-- How many registers a block store or load moves: X + 1 (R144, R145). -/
def blockLen (x : Nibble) : Nat := x.toNat + 1

end Sys2Proof.Machine
end

