-- ==== Sys2Proof/Machine/Agents.lean ====
section
/-! DEFINITION. The moves of the timer engine and of the host (spec/60_exceptions.md R211, R213, R218, R219, R222,
spec/44_keypad_timer_random.md R183, spec/70_reset_and_hazards.md R240, R241, R244). -/

namespace Sys2Proof.Machine

/-- One count down, clamped at 0 (R213). -/
def countDown (t : Byte) : Byte := if t = 0#8 then 0#8 else t - 1#8

/-- Tick (R213): both timers, in every run state (R216). -/
def State.tick (s : State) : State := { s with dt := countDown s.dt, st := countDown s.st }

/-- The host sets or clears one key flag (R218). -/
def State.setKey (s : State) (k : Nibble) (down : Bool) : State :=
  { s with keys := s.keys.set k.toNat down }

/-- KeyPress(k) (R219): completes a key wait (R183), and is dropped in every other run state (D21). -/
def State.keyPress (s : State) (k : Nibble) : State :=
  match s.run with
  | .waitKey x => { s.setReg x (zextKey k) with run := .running }
  | .running => s
  | .halted _ => s

/-- Cancel (R211): halts a running or waiting engine, FAULT untouched; no effect in Halted (R208). -/
def State.cancel (s : State) : State :=
  match s.run with
  | .running => { s with run := .halted .cancelled }
  | .waitKey _ => { s with run := .halted .cancelled }
  | .halted _ => s

/-- MEM after Reset(ROM): zero, then FONT, then the image at 512 (R240). -/
def bootMemory (font : Vector Byte 80) (rom : List Byte) : Memory :=
  Memory.loadImage ⟨font, []⟩ Config.romBase rom

/-- The state after an accepted Reset(ROM) (R240, R244): every piece of the machine's state is discarded. The model's own
records stay: the moves to come, the events so far, the draws made (notes/assumptions/13.md). -/
def State.boot (s : State) (rom : List Byte) : State :=
  { State.reset with
    mem := bootMemory s.mem.font rom, draws := s.draws, schedule := s.schedule, trace := s.trace }

/-- Reset(ROM) (R240): refused with LoadFailure above 3584 bytes (R205, R241). -/
def hostReset (rom : List Byte) (s : State) : Host.Outcome State Fault Refusal :=
  if romWellFormed rom then .next (s.boot rom) else .refused .loadFailure

end Sys2Proof.Machine
end

