-- ==== Sys2Proof/Machine/Flags.lean ====
section
/-! DEFINITION. The flag computations of spec/41_load_alu.md R126 to R130 and the write of a flag into VF: result first,
flag last (R131, D10). -/

namespace Sys2Proof.Machine

/-- bool(c) as a byte, 1 or 0 (R8). -/
def flagByte (c : Bool) : Byte := if c then 1#8 else 0#8

/-- Carry out: the 9-bit sum exceeds 255 (R126). -/
def carryOut (a b : Byte) : Bool := decide (255 < a.toNat + b.toNat)

/-- Not-borrow of minuend - subtrahend: minuend ≥ subtrahend (R127, R129). -/
def notBorrow (minuend subtrahend : Byte) : Bool := decide (subtrahend.toNat ≤ minuend.toNat)

/-- The bit a right shift moves out: old bit 0 (R128). -/
def shiftedOutRight (a : Byte) : Bool := a.getLsbD 0

/-- The bit a left shift moves out: old bit 7 (R130). -/
def shiftedOutLeft (a : Byte) : Bool := a.getLsbD 7

/-- VF <- bool(c) (R21). -/
def State.setFlag (s : State) (c : Bool) : State := s.setReg Config.flagReg (flagByte c)

/-- V[X] <- result, then VF <- flag, both computed beforehand (R131). -/
def State.setResultFlag (s : State) (x : Nibble) (result : Byte) (flag : Bool) : State :=
  (s.setReg x result).setFlag flag

end Sys2Proof.Machine
end

