-- ==== Sys2Proof/Machine/Alu.lean ====
section
/-! DEFINITION. Register load, add immediate and the ALU group (spec/41_load_alu.md). Operands are read before any
write and the flag is written last (R131). -/

namespace Sys2Proof.Machine

/-- LD Vx, NN (R120). -/
def execLdImm (x : Nibble) (nn : Byte) (s : State) : Host.Outcome State Fault Refusal :=
  .next (s.setReg x nn)

/-- ADD Vx, NN (R121): modulo 256, no flag. -/
def execAddImm (x : Nibble) (nn : Byte) (s : State) : Host.Outcome State Fault Refusal :=
  .next (s.setReg x (s.reg x + nn))

/-- LD Vx, Vy (R122). -/
def execLdReg (x y : Nibble) (s : State) : Host.Outcome State Fault Refusal :=
  .next (s.setReg x (s.reg y))

/-- OR Vx, Vy (R123): no flag. -/
def execOrReg (x y : Nibble) (s : State) : Host.Outcome State Fault Refusal :=
  .next (s.setReg x (s.reg x ||| s.reg y))

/-- AND Vx, Vy (R124): no flag. -/
def execAndReg (x y : Nibble) (s : State) : Host.Outcome State Fault Refusal :=
  .next (s.setReg x (s.reg x &&& s.reg y))

/-- XOR Vx, Vy (R125): no flag. -/
def execXorReg (x y : Nibble) (s : State) : Host.Outcome State Fault Refusal :=
  .next (s.setReg x (s.reg x ^^^ s.reg y))

/-- ADD Vx, Vy (R126): VF is the carry. -/
def execAddReg (x y : Nibble) (s : State) : Host.Outcome State Fault Refusal :=
  .next (s.setResultFlag x (s.reg x + s.reg y) (carryOut (s.reg x) (s.reg y)))

/-- SUB Vx, Vy (R127): VF is 1 when V[X] ≥ V[Y]. -/
def execSubReg (x y : Nibble) (s : State) : Host.Outcome State Fault Refusal :=
  .next (s.setResultFlag x (s.reg x - s.reg y) (notBorrow (s.reg x) (s.reg y)))

/-- SHR Vx (R128): V[X] in place, the Y field ignored (D11); VF is old bit 0. -/
def execShr (x _y : Nibble) (s : State) : Host.Outcome State Fault Refusal :=
  .next (s.setResultFlag x (s.reg x >>> 1) (shiftedOutRight (s.reg x)))

/-- SUBN Vx, Vy (R129): V[X] <- V[Y] - V[X]; VF is 1 when V[Y] ≥ V[X] (D32). -/
def execSubnReg (x y : Nibble) (s : State) : Host.Outcome State Fault Refusal :=
  .next (s.setResultFlag x (s.reg y - s.reg x) (notBorrow (s.reg y) (s.reg x)))

/-- SHL Vx (R130): V[X] in place, the Y field ignored (D11); VF is old bit 7. -/
def execShl (x _y : Nibble) (s : State) : Host.Outcome State Fault Refusal :=
  .next (s.setResultFlag x (s.reg x <<< 1) (shiftedOutLeft (s.reg x)))

end Sys2Proof.Machine
end

