-- ==== Sys2Proof/Machine/Control.lean ====
section
/-! DEFINITION. Control transfer (spec/40_control_transfer.md). Every meaning is given the state of the execute phase,
in which PC already holds A + 2 (R10, R70; notes/assumptions/9.md). -/

namespace Sys2Proof.Machine

/-- RET (R100): StackUnderflow when SP = 0 (R203), else PC <- STACK[SP], SP <- SP - 1. -/
def execRet (s : State) : Host.Outcome State Fault Refusal :=
  if s.sp = 0#4 then .next (s.raise .stackUnderflow (encode .ret))
  else .next { s with pc := s.slot s.sp, sp := s.sp - 1#4 }

/-- JP NNN (R101). -/
def execJp (nnn : Addr) (s : State) : Host.Outcome State Fault Refusal :=
  .next { s with pc := zextAddr nnn }

/-- CALL NNN (R102): StackOverflow when SP = 15 (R202), else SP <- SP + 1, STACK[SP] <- PC, PC <- NNN. -/
def execCall (nnn : Addr) (s : State) : Host.Outcome State Fault Refusal :=
  if s.sp = 15#4 then .next (s.raise .stackOverflow (encode (.call nnn)))
  else .next { s.setSlot (s.sp + 1#4) s.pc with sp := s.sp + 1#4, pc := zextAddr nnn }

/-- SE Vx, NN (R103). -/
def execSeImm (x : Nibble) (nn : Byte) (s : State) : Host.Outcome State Fault Refusal :=
  .next (s.skipIf (s.reg x == nn))

/-- SNE Vx, NN (R104). -/
def execSneImm (x : Nibble) (nn : Byte) (s : State) : Host.Outcome State Fault Refusal :=
  .next (s.skipIf (s.reg x != nn))

/-- SE Vx, Vy (R105). -/
def execSeReg (x y : Nibble) (s : State) : Host.Outcome State Fault Refusal :=
  .next (s.skipIf (s.reg x == s.reg y))

/-- SNE Vx, Vy (R106). -/
def execSneReg (x y : Nibble) (s : State) : Host.Outcome State Fault Refusal :=
  .next (s.skipIf (s.reg x != s.reg y))

/-- JP V0, NNN (R107). -/
def execJpV0 (nnn : Addr) (s : State) : Host.Outcome State Fault Refusal :=
  .next { s with pc := indexedTarget nnn (s.reg 0#4) }

end Sys2Proof.Machine
end

