-- ==== Sys2Proof/Machine/Display.lean ====
section
/-! DEFINITION. The display instructions (spec/43_display.md). -/

namespace Sys2Proof.Machine

/-- CLS (R160): every cell false; DisplayChanged when some cell was true. -/
def execCls (s : State) : Host.Outcome State Fault Refusal :=
  .next ({ s with fb := Framebuffer.blank }.emitIf s.fb.anyLit)

/-- The DRW loop run from the state's framebuffer: N rows at I, origin (V[X], V[Y]) (R161). -/
def drawSprite (s : State) (x y n : Nibble) : Blit :=
  blitRows s.mem s.index (s.reg x) (s.reg y) n.toNat ⟨s.fb, false, false⟩

/-- DRW Vx, Vy, N (R161): VF is the collision, written after the origin is read; DisplayChanged when a cell changed. -/
def execDrw (x y n : Nibble) (s : State) : Host.Outcome State Fault Refusal :=
  .next (({ s with fb := (drawSprite s x y n).fb }.setFlag (drawSprite s x y n).collision).emitIf
    (drawSprite s x y n).changed)

end Sys2Proof.Machine
end

