-- ==== Sys2Proof/Machine/IndexMemory.lean ====
section
/-! DEFINITION. The index register, font lookup, decimal store, register block store and load
(spec/42_index_memory.md). I is read and never written by the stores and loads (R146, D12). -/

namespace Sys2Proof.Machine

/-- LD I, NNN (R140). -/
def execLdI (nnn : Addr) (s : State) : Host.Outcome State Fault Refusal :=
  .next { s with index := zextAddr nnn }

/-- ADD I, Vx (R141): modulo 65536, no flag. -/
def execAddI (x : Nibble) (s : State) : Host.Outcome State Fault Refusal :=
  .next { s with index := s.index + zextByte (s.reg x) }

/-- LD F, Vx (R142): OperandRange when V[X] > 15 (R204), else I <- 5 * V[X]. -/
def execLdF (x : Nibble) (s : State) : Host.Outcome State Fault Refusal :=
  match nibbleOperand (s.reg x) with
  | some d => .next { s with index := fontAddr d }
  | none => .next (s.raise .operandRange (encode (.ldF x)))

/-- LD B, Vx (R143): hundreds, tens, ones at I, I + 1, I + 2. -/
def execLdB (x : Nibble) (s : State) : Host.Outcome State Fault Refusal :=
  .next (((s.storeByte s.index 0 (hundreds (s.reg x))).storeByte s.index 1 (tens (s.reg x))).storeByte
    s.index 2 (ones (s.reg x)))

/-- LD [I], Vx (R144). -/
def execStoreRegs (x : Nibble) (s : State) : Host.Outcome State Fault Refusal :=
  .next (s.storeRange (blockLen x))

/-- LD Vx, [I] (R145). -/
def execLoadRegs (x : Nibble) (s : State) : Host.Outcome State Fault Refusal :=
  .next (s.loadRange (blockLen x))

end Sys2Proof.Machine
end

