-- ==== Sys2Proof/Machine/KeyTimer.lean ====
section
/-! DEFINITION. Keypad skips, the blocking key wait, timer access, masked random
(spec/44_keypad_timer_random.md). -/

namespace Sys2Proof.Machine

/-- SKP Vx (R180): OperandRange when V[X] > 15 (R188, R204). -/
def execSkp (x : Nibble) (s : State) : Host.Outcome State Fault Refusal :=
  match nibbleOperand (s.reg x) with
  | some k => .next (s.skipIf (s.key k))
  | none => .next (s.raise .operandRange (encode (.skp x)))

/-- SKNP Vx (R181): OperandRange when V[X] > 15 (R188, R204). -/
def execSknp (x : Nibble) (s : State) : Host.Outcome State Fault Refusal :=
  match nibbleOperand (s.reg x) with
  | some k => .next (s.skipIf (!s.key k))
  | none => .next (s.raise .operandRange (encode (.sknp x)))

/-- LD Vx, K (R182), the issue step: RUN <- WaitKey(X). Its completion is `State.keyPress` (R183). -/
def execLdVxK (x : Nibble) (s : State) : Host.Outcome State Fault Refusal :=
  .next { s with run := .waitKey x }

/-- LD Vx, DT (R184). -/
def execLdVxDt (x : Nibble) (s : State) : Host.Outcome State Fault Refusal :=
  .next (s.setReg x s.dt)

/-- LD DT, Vx (R185). -/
def execLdDtVx (x : Nibble) (s : State) : Host.Outcome State Fault Refusal :=
  .next { s with dt := s.reg x }

/-- LD ST, Vx (R186). -/
def execLdStVx (x : Nibble) (s : State) : Host.Outcome State Fault Refusal :=
  .next { s with st := s.reg x }

/-- RND Vx, NN (R187): the drawn byte is free, and each execution draws anew (notes/assumptions/3.md). -/
def execRnd (x : Nibble) (nn : Byte) (s : State) : Host.Outcome State Fault Refusal :=
  .next { s.setReg x (Config.randomByte s.draws &&& nn) with draws := s.draws + 1 }

end Sys2Proof.Machine
end

