-- ==== Sys2Proof/Machine/Cycle.lean ====
section
/-! DEFINITION. The engine's step and the choice of the next agent (spec/30_encoding.md R70, spec/10_state.md R31, R40,
R41). -/

namespace Sys2Proof.Machine

/-- The instruction cycle (R70): fetch, advance, decode, execute; DecodeFailure on a word that decodes to nothing
(R201). -/
def cycle (s : State) : Host.Outcome State Fault Refusal :=
  match decodeWord (fetchWord s.mem s.pc) with
  | .instr i => exec i s.advance
  | .illegal _ => .next (s.advance.raise .decodeFailure (fetchWord s.mem s.pc))
  | .truncated => .next (s.advance.raise .decodeFailure (fetchWord s.mem s.pc))

/-- The engine's move (R31): a cycle in Running; in WaitKey and in Halted it has no step, a stuck state
(notes/assumptions/2.md). -/
def engineMove (s : State) : Host.Outcome State Fault Refusal :=
  match s.run with
  | .running => cycle s
  | .waitKey x => .fault (.waitingForKey x)
  | .halted c => .fault (.engineHalted c)

/-- One atomic move of one agent (R40, R41). -/
def applyMove (m : Move) (s : State) : Host.Outcome State Fault Refusal :=
  match m with
  | .engine => engineMove s
  | .tick => .next s.tick
  | .setKey k down => .next (s.setKey k down)
  | .keyPress k => .next (s.keyPress k)
  | .cancel => .next s.cancel
  | .reset rom => hostReset rom s

/-- The next move of the machine: the head of the schedule, or the engine's when the schedule is empty
(R41; notes/assumptions/1.md). -/
def nextMove (s : State) : Host.Outcome State Fault Refusal :=
  match s.schedule with
  | [] => engineMove s
  | m :: rest => applyMove m { s with schedule := rest }

/-- A word in memory at PC: its two bytes where the fetch reads them (R55). -/
def State.placeWord (s : State) (op : Word) : State :=
  { s with mem := (s.mem.write (memAddr s.pc 0) (wordByte0 op)).write (memAddr s.pc 1) (wordByte1 op) }

/-- The engine about to perform a cycle: no move scheduled before it, Running, and so no fault recorded (R31, R32). -/
def State.ready (s : State) : State :=
  { s with schedule := [], run := .running, fault := none }

end Sys2Proof.Machine
end

