-- ==== Sys2Proof/Machine/Step.lean ====
section
/-! DEFINITION. One step of the machine, and an instruction placed where the step fetches it. -/

namespace Sys2Proof.Machine

/-- One atomic step of one agent (spec/10_state.md R40, R41). -/
def step (s : State) : Host.Outcome State Fault Refusal := nextMove s

/-- s with a table row's instruction where the very next step fetches and runs it (notes/assumptions/15.md). -/
def State.withFetchWord (s : State) (nbits w : Nat) : State :=
  s.ready.placeWord (tableWord nbits w)

end Sys2Proof.Machine
end

