-- ==== Sys2Proof/Safety.lean ====
section
/-! DEFINITION. The terms the statements use: the pieces of the state and what it means that a step touches only some of
them, the machine's invariant, and what counts as a safe run and as its end (spec/60_exceptions.md R208,
spec/70_reset_and_hazards.md R251). -/

namespace Sys2Proof.Machine

/-- One piece of the state: a register, a slot, a key, a cell, a byte of memory, or a whole field. Together they are
the whole state. -/
inductive Piece where
  | reg (x : Nibble)
  | index
  | pc
  | sp
  | slot (k : Nibble)
  | dt
  | st
  | key (k : Nibble)
  | cell (x : Fin 64) (y : Fin 32)
  | byte (a : Nat)
  | font
  | run
  | fault
  | draws
  | schedule
  | trace
  deriving DecidableEq, Repr

/-- The piece holds in t what it held in s. -/
def Piece.same (p : Piece) (s t : State) : Prop :=
  match p with
  | .reg x => t.reg x = s.reg x
  | .index => t.index = s.index
  | .pc => t.pc = s.pc
  | .sp => t.sp = s.sp
  | .slot k => t.slot k = s.slot k
  | .dt => t.dt = s.dt
  | .st => t.st = s.st
  | .key k => t.key k = s.key k
  | .cell x y => t.fb.cell x y = s.fb.cell x y
  | .byte a => t.mem.read a = s.mem.read a
  | .font => t.mem.font = s.mem.font
  | .run => t.run = s.run
  | .fault => t.fault = s.fault
  | .draws => t.draws = s.draws
  | .schedule => t.schedule = s.schedule
  | .trace => t.trace = s.trace

/-- Every piece outside `touched` holds in t what it held in s. -/
def Frame (touched : Piece → Prop) (s t : State) : Prop :=
  ∀ p, ¬ touched p → p.same s t

/-- The pieces in a list. -/
def only (ps : List Piece) : Piece → Prop := fun p => p ∈ ps

/-- The pieces in a list, and every framebuffer cell. -/
def onlyAndCells (ps : List Piece) : Piece → Prop := fun p => p ∈ ps ∨ ∃ x y, p = .cell x y

/-- The pieces that registers V[0] .. V[n-1] are (R145). -/
def regPieces (n : Nat) : List Piece := (List.range n).map fun i => .reg (BitVec.ofNat 4 i)

/-- The bytes a sequence of n at a base address occupies, by the address the meanings use (R51). -/
def bytePieces (base : Word) (n : Nat) : List Piece := (List.range n).map fun i => .byte (memAddr base i)

/-- The engine is to move and has a cycle to perform (R31, R41). -/
def engineTurn (s : State) : Prop :=
  s.run = .running ∧ (s.schedule = [] ∨ ∃ rest, s.schedule = .engine :: rest)

/-- A decoded word can raise this fault (R200): the fault kinds belong to disjoint sets of words (R209). -/
def FaultKind.raisedBy (k : FaultKind) (d : Decoded) : Bool :=
  match k, d with
  | .decodeFailure, .illegal _ => true
  | .stackOverflow, .instr (.call _) => true
  | .stackUnderflow, .instr .ret => true
  | .operandRange, .instr (.skp _) => true
  | .operandRange, .instr (.sknp _) => true
  | .operandRange, .instr (.ldF _) => true
  | _, _ => false

/-- The state still shows why the fault was raised (R200): nothing changes SP or V in Halted (R208). -/
def FaultKind.explained (k : FaultKind) (op : Word) (s : State) : Prop :=
  match k with
  | .decodeFailure => True
  | .stackOverflow => s.sp = 15#4
  | .stackUnderflow => s.sp = 0#4
  | .operandRange => 15 < (s.reg (opX op)).toNat

/-- FAULT is valid exactly in Halted with a fault cause, and then it is (cause, PC - 2, a word that raises it)
(R32, R200, R206, R207). -/
def faultConsistent (s : State) : Prop :=
  match s.run with
  | .running => s.fault = none
  | .waitKey _ => s.fault = none
  | .halted .cancelled => s.fault = none
  | .halted (.fault k) =>
    ∃ op, s.fault = some ⟨k, s.pc - 2#16, op⟩ ∧ k.raisedBy (decodeWord op) = true ∧ k.explained op s

/-- The machine's invariant: memory in canonical form, the fault record consistent with the run state (R32, R207), and
slot 0 of the stack still at its reset value, never written (R25). -/
def State.Inv (s : State) : Prop :=
  s.mem.wf ∧ faultConsistent s ∧ s.slot 0#4 = 0#16

/-- No fault has stopped the engine: what every claim about a program must show (R208). -/
def noFault (s : State) : Prop := ∀ k, s.run ≠ .halted (.fault k)

/-- The end state of a program (R251): PC is the address of a jump to itself, and RUN = Running. -/
def atSelfJump (s : State) : Prop :=
  s.run = .running ∧ ∃ nnn, decodeWord (fetchWord s.mem s.pc) = .instr (.jp nnn) ∧ s.pc = zextAddr nnn

/-- The framebuffer cell (cx, cy) is addressed by a set bit of the sprite that DRW Vx, Vy, N draws in state s: bit
7 - c of the byte at I + r, drawn at column (V[X] + c) mod 64 and row (V[Y] + r) mod 32 (R161, R162). -/
def spriteLights (s : State) (x y n : Nibble) (cx : Fin 64) (cy : Fin 32) : Prop :=
  ∃ r c, r < n.toNat ∧ c < 8 ∧ (s.mem.read (memAddr s.index r)).toNat / 2 ^ (7 - c) % 2 = 1 ∧
    ((s.reg x).toNat + c) % 64 = cx.val ∧ ((s.reg y).toNat + r) % 32 = cy.val

/-- The words of each illegal set, as numbers (R76). -/
def illegalWord (g : IllegalSet) (w : Nat) : Bool :=
  match g with
  | .zeroGroup => w / 4096 == 0 && w != 0x00E0 && w != 0x00EE
  | .seRegGroup => w / 4096 == 5 && w % 16 != 0
  | .aluGroup => w / 4096 == 8 && [8, 9, 10, 11, 12, 13, 15].contains (w % 16)
  | .sneRegGroup => w / 4096 == 9 && w % 16 != 0
  | .keyGroup => w / 4096 == 14 && !([0x9E, 0xA1].contains (w % 256))
  | .miscGroup =>
    w / 4096 == 15 && !([0x07, 0x0A, 0x15, 0x18, 0x1E, 0x29, 0x33, 0x55, 0x65].contains (w % 256))

/-- The list of the instructions that write VF as a side effect (R21). -/
def writesFlag : Instr → Bool
  | .addReg _ _ => true
  | .subReg _ _ => true
  | .shr _ _ => true
  | .subnReg _ _ => true
  | .shl _ _ => true
  | .drw _ _ _ => true
  | _ => false

/-- The register an instruction names as its destination, if it has one (R20, R21). -/
def namedDest : Instr → Nibble → Bool
  | .ldImm x _, r => r == x
  | .addImm x _, r => r == x
  | .ldReg x _, r => r == x
  | .orReg x _, r => r == x
  | .andReg x _, r => r == x
  | .xorReg x _, r => r == x
  | .addReg x _, r => r == x
  | .subReg x _, r => r == x
  | .shr x _, r => r == x
  | .subnReg x _, r => r == x
  | .shl x _, r => r == x
  | .rnd x _, r => r == x
  | .ldVxDt x, r => r == x
  | .loadRegs x, r => decide (r.toNat ≤ x.toNat)
  | _, _ => false

end Sys2Proof.Machine
end

