-- ==== Sys2Proof/Certificates/Slice0/Obligations.lean ====
section
/-! DEFINITION. The statements about the machine, from the numbered rules of spec/. `exec` is given the state of the
execute phase, in which PC already holds A + 2 (R10, R70). `Frame touched s t` says that every piece of the state outside
`touched` is in t what it was in s; a byte of memory is read through `Memory.read`, and the bytes stored to are computed
with `memAddr`, the function the meanings use, from the I the instruction starts with. -/

open Sys2Proof Sys2Proof.Machine

/-! ### Encoding -/

/-- Decoding the word of an instruction gives it back, every operand at every value (30_encoding.md R74, R75; the
encoding is PRESUMED, log 7). -/
def Obligations.DecodeOfEncode : Prop :=
  ∀ i : Instr, decodeWord (encode i) = .instr i

/-- A word that decodes to an instruction is that instruction's word: no bit is dropped, the Y field of the shifts
included (30_encoding.md R74, R75, R128, R130; log 7). -/
def Obligations.EncodeOfDecode : Prop :=
  ∀ (w : Word) (i : Instr), decodeWord w = .instr i → encode i = w

/-- The decode tree of R74 accepts exactly the words some row of the opcode map of R75 selects, and every other word
lies in the set of R76 it is rejected by (log 7). -/
def Obligations.DecodeAcceptsExactlyTheMap : Prop :=
  ∀ w : Word,
    match decodeWord w with
    | .instr _ => wordWellFormed w = true
    | .illegal g => wordWellFormed w = false ∧ illegalWord g w.toNat = true
    | .truncated => False

/-- "The rows are pairwise disjoint (no word matches two rows)" (R75; log 7). -/
def Obligations.OpcodeRowsDisjoint : Prop :=
  opcodeTable.length = 34 ∧ ∀ w : Word, (opcodeTable.filter fun r => r.selects w).length ≤ 1

/-- Words of 95_test_vectors.md, written out from R75, decode to the instructions they stand for (log 7). -/
def Obligations.SampleWordsDecode : Prop :=
  decodeWord 0x00E0#16 = .instr .cls ∧ decodeWord 0x1ABC#16 = .instr (.jp 0xABC#12) ∧
  decodeWord 0x5340#16 = .instr (.seReg 3#4 4#4) ∧ decodeWord 0x8014#16 = .instr (.addReg 0#4 1#4) ∧
  decodeWord 0x8FFE#16 = .instr (.shl 15#4 15#4) ∧ decodeWord 0xD12A#16 = .instr (.drw 1#4 2#4 10#4) ∧
  decodeWord 0xE59E#16 = .instr (.skp 5#4) ∧ decodeWord 0xF233#16 = .instr (.ldB 2#4) ∧
  decodeWord 0x0000#16 = .illegal .zeroGroup ∧ decodeWord 0xF030#16 = .illegal .miscGroup

/-! ### The cycle and the step -/

/-- Fetch reads two bytes at PC, big-endian, each address reduced mod 4096 on its own (R55). -/
def Obligations.FetchIsBigEndian : Prop :=
  ∀ (m : Memory) (pc : Word),
    (fetchWord m pc).toNat =
      256 * (m.read (pc.toNat % 4096)).toNat + (m.read ((pc.toNat + 1) % 4096)).toNat

/-- A step runs the decoded instruction: when it is the engine's turn and the word at PC decodes to i, step is exec of i
on the state with PC advanced by 2 and the engine's move taken off the schedule (R70; the schedule is the model's, log 1). -/
def Obligations.StepRunsTheDecodedInstruction : Prop :=
  ∀ (s : State) (i : Instr), engineTurn s → decodeWord (fetchWord s.mem s.pc) = .instr i →
    step s = exec i { s with pc := s.pc + 2#16, schedule := s.schedule.tail }

/-- The codes of R200 tell the causes apart: no two stop causes share a code, and a reset refused with LoadFailure has code
5, which no stop of the engine has (R200, R205; the numbers are the spec's decision D23). -/
def Obligations.CauseCodesAreDistinct : Prop :=
  (∀ c d : StopCause, c.code = d.code → c = d) ∧ Refusal.loadFailure.code = some 5 ∧
    ∀ c : StopCause, 1 ≤ c.code ∧ c.code ≤ 6 ∧ c.code ≠ 5

/-- An illegal word raises DecodeFailure: FAULT = (1, A, op), RUN = Halted, PC = A + 2, nothing else (R201, R206; that PC
ends at A + 2 is the spec's decision D24, log 19). -/
def Obligations.IllegalWordRaisesDecodeFailure : Prop :=
  ∀ (s : State) (g : IllegalSet), engineTurn s → decodeWord (fetchWord s.mem s.pc) = .illegal g →
    ∃ t, step s = .next t ∧ t.run = .halted (.fault .decodeFailure) ∧
      t.fault = some ⟨.decodeFailure, s.pc, fetchWord s.mem s.pc⟩ ∧ t.pc = s.pc + 2#16 ∧
      t.schedule = s.schedule.tail ∧ Frame (only [.pc, .run, .fault, .schedule]) s t

/-- In WaitKey and in Halted the engine has no step: its move stops, by name (R31, R182, R208; that the model answers a
fault there is its own choice, log 2). -/
def Obligations.EngineStuckWhenNotRunning : Prop :=
  ∀ s : State, (s.schedule = [] ∨ ∃ rest, s.schedule = .engine :: rest) →
    (∀ x, s.run = .waitKey x → step s = .fault (.waitingForKey x)) ∧
    (∀ c, s.run = .halted c → step s = .fault (.engineHalted c))

/-- Every instruction answers a next state in every state: no memory access, no arithmetic and no alignment stops the
engine, and the four faults are next states too (R200, R206; log 19). -/
def Obligations.EveryInstructionAnswersNext : Prop :=
  ∀ (i : Instr) (s : State), ∃ t, exec i s = .next t

/-- Faults are precise (R207): when the engine's step from Running ends in a fault, FAULT holds that fault, the address
and the word of the instruction fetched, PC is past it, and nothing else has changed (R206; decision D24, log 19). -/
def Obligations.FaultsArePrecise : Prop :=
  ∀ (s t : State) (k : FaultKind), engineTurn s → step s = .next t → t.run = .halted (.fault k) →
    t.fault = some ⟨k, s.pc, fetchWord s.mem s.pc⟩ ∧ t.pc = s.pc + 2#16 ∧
      k.raisedBy (decodeWord (fetchWord s.mem s.pc)) = true ∧
      Frame (only [.pc, .run, .fault, .schedule]) s t

/-! ### Control transfer -/

/-- RET with an address on the stack: PC <- STACK[SP], then SP <- SP - 1; the slot keeps its content (R100). -/
def Obligations.ReturnPopsTheStack : Prop :=
  ∀ s : State, s.sp ≠ 0#4 →
    ∃ t, exec .ret s = .next t ∧ t.pc = s.slot s.sp ∧ t.sp.toNat + 1 = s.sp.toNat ∧
      Frame (only [.pc, .sp]) s t

/-- RET with SP = 0 raises StackUnderflow and changes nothing else (R100, R203, the spec's decision D8; log 19). -/
def Obligations.ReturnOnEmptyStackFaults : Prop :=
  ∀ s : State, s.sp = 0#4 →
    ∃ t, exec .ret s = .next t ∧ t.run = .halted (.fault .stackUnderflow) ∧
      t.fault = some ⟨.stackUnderflow, s.pc - 2#16, 0x00EE#16⟩ ∧ Frame (only [.run, .fault]) s t

/-- JP NNN: PC <- zext_16(NNN) (R101). -/
def Obligations.JumpLoadsItsAddress : Prop :=
  ∀ (nnn : Addr) (s : State),
    ∃ t, exec (.jp nnn) s = .next t ∧ t.pc.toNat = nnn.toNat ∧ Frame (only [.pc]) s t

/-- CALL NNN below 15 levels: SP <- SP + 1, STACK[SP] <- PC, PC <- zext_16(NNN) (R102). -/
def Obligations.CallPushesTheReturnAddress : Prop :=
  ∀ (nnn : Addr) (s : State), s.sp ≠ 15#4 →
    ∃ t, exec (.call nnn) s = .next t ∧ t.sp.toNat = s.sp.toNat + 1 ∧ t.slot t.sp = s.pc ∧
      t.pc.toNat = nnn.toNat ∧ Frame (only [.pc, .sp, .slot (s.sp + 1#4)]) s t

/-- CALL with SP = 15 raises StackOverflow and changes nothing else (R102, R202, the spec's decision D7; log 19). -/
def Obligations.CallOnFullStackFaults : Prop :=
  ∀ (nnn : Addr) (s : State), s.sp = 15#4 →
    ∃ t op, exec (.call nnn) s = .next t ∧ t.run = .halted (.fault .stackOverflow) ∧
      t.fault = some ⟨.stackOverflow, s.pc - 2#16, op⟩ ∧ op.toNat = 0x2000 + nnn.toNat ∧
      Frame (only [.run, .fault]) s t

/-- A subroutine that leaves SP and its slot as the CALL left them returns to the instruction after the CALL, with the
stack pointer as before it (R100, R102). -/
def Obligations.CallThenReturnComesBack : Prop :=
  ∀ (nnn : Addr) (s t b : State), s.sp ≠ 15#4 → exec (.call nnn) s = .next t →
    b.sp = t.sp → b.slot b.sp = t.slot t.sp →
    ∃ u, exec .ret b = .next u ∧ u.pc = s.pc ∧ u.sp = s.sp ∧ Frame (only [.pc, .sp]) b u

/-- SE Vx, NN skips exactly when V[X] = NN, SNE Vx, NN exactly when V[X] ≠ NN; a skip adds 2 to PC, modulo 65536, and
nothing else changes (R103, R104). -/
def Obligations.ImmediateSkips : Prop :=
  ∀ (x : Nibble) (nn : Byte) (s : State), ∃ t u,
    exec (.seImm x nn) s = .next t ∧ exec (.sneImm x nn) s = .next u ∧
      t.pc.toNat = (if (s.reg x).toNat = nn.toNat then (s.pc.toNat + 2) % 65536 else s.pc.toNat) ∧
      u.pc.toNat = (if (s.reg x).toNat = nn.toNat then s.pc.toNat else (s.pc.toNat + 2) % 65536) ∧
      Frame (only [.pc]) s t ∧ Frame (only [.pc]) s u

/-- SE Vx, Vy skips exactly when the registers are equal, SNE Vx, Vy exactly when they differ, X = Y included
(R105, R106). -/
def Obligations.RegisterSkips : Prop :=
  ∀ (x y : Nibble) (s : State), ∃ t u,
    exec (.seReg x y) s = .next t ∧ exec (.sneReg x y) s = .next u ∧
      t.pc.toNat = (if (s.reg x).toNat = (s.reg y).toNat then (s.pc.toNat + 2) % 65536 else s.pc.toNat) ∧
      u.pc.toNat = (if (s.reg x).toNat = (s.reg y).toNat then s.pc.toNat else (s.pc.toNat + 2) % 65536) ∧
      Frame (only [.pc]) s t ∧ Frame (only [.pc]) s u

/-- JP V0, NNN: PC <- NNN + V[0]; the sum never wraps, at most 0x10FE (R107). -/
def Obligations.IndexedJumpAddsV0 : Prop :=
  ∀ (nnn : Addr) (s : State),
    ∃ t, exec (.jpV0 nnn) s = .next t ∧ t.pc.toNat = nnn.toNat + (s.reg 0#4).toNat ∧
      t.pc.toNat ≤ 0x10FE ∧ Frame (only [.pc]) s t

/-! ### Load and ALU -/

/-- LD Vx, NN and ADD Vx, NN: the register written and nothing else, no flag, X = 15 included (R120, R121). -/
def Obligations.ImmediateLoadAndAdd : Prop :=
  ∀ (x : Nibble) (nn : Byte) (s : State), ∃ t u,
    exec (.ldImm x nn) s = .next t ∧ exec (.addImm x nn) s = .next u ∧
      t.reg x = nn ∧ (u.reg x).toNat = ((s.reg x).toNat + nn.toNat) % 256 ∧
      Frame (only [.reg x]) s t ∧ Frame (only [.reg x]) s u

/-- LD Vx, Vy, OR, AND, XOR, bit by bit; VF is not written unless X = 15 (R122 to R125; the roles of X and Y are the
spec's decision D1, log 7). -/
def Obligations.CopyAndLogic : Prop :=
  ∀ (x y : Nibble) (s : State), ∃ t u v w,
    exec (.ldReg x y) s = .next t ∧ exec (.orReg x y) s = .next u ∧
      exec (.andReg x y) s = .next v ∧ exec (.xorReg x y) s = .next w ∧
      (∀ j, j < 8 →
        (t.reg x).getLsbD j = (s.reg y).getLsbD j ∧
        (u.reg x).getLsbD j = ((s.reg x).getLsbD j || (s.reg y).getLsbD j) ∧
        (v.reg x).getLsbD j = ((s.reg x).getLsbD j && (s.reg y).getLsbD j) ∧
        (w.reg x).getLsbD j = ((s.reg x).getLsbD j != (s.reg y).getLsbD j)) ∧
      Frame (only [.reg x]) s t ∧ Frame (only [.reg x]) s u ∧
      Frame (only [.reg x]) s v ∧ Frame (only [.reg x]) s w

/-- ADD Vx, Vy: the 9-bit sum of the old values; V[X] gets it mod 256 and VF, written last, its bit 8, so that with
X = 15 the flag stands (R126, R131; write order is the spec's decision D10, log 18). -/
def Obligations.AddWithCarryOut : Prop :=
  ∀ (x y : Nibble) (s : State),
    ∃ t, exec (.addReg x y) s = .next t ∧
      (t.reg 15#4).toNat = ((s.reg x).toNat + (s.reg y).toNat) / 256 ∧
      (x ≠ 15#4 → (t.reg x).toNat = ((s.reg x).toNat + (s.reg y).toNat) % 256) ∧
      Frame (only [.reg x, .reg 15#4]) s t

/-- SUB Vx, Vy: V[X] - V[Y] modulo 256, VF = 1 when V[X] ≥ V[Y] and 0 when it borrows, VF last (R127, R131; D10,
log 18). -/
def Obligations.SubtractNotBorrow : Prop :=
  ∀ (x y : Nibble) (s : State),
    ∃ t, exec (.subReg x y) s = .next t ∧
      (t.reg 15#4).toNat = (if (s.reg x).toNat ≥ (s.reg y).toNat then 1 else 0) ∧
      (x ≠ 15#4 → (t.reg x).toNat = ((s.reg x).toNat + 256 - (s.reg y).toNat) % 256) ∧
      Frame (only [.reg x, .reg 15#4]) s t

/-- SUBN Vx, Vy: V[Y] - V[X] modulo 256 into V[X], VF = 1 when V[Y] ≥ V[X], VF last (R129, R131; the sense of the flag
is the spec's decision D32, the write order D10, log 18). -/
def Obligations.ReverseSubtractNotBorrow : Prop :=
  ∀ (x y : Nibble) (s : State),
    ∃ t, exec (.subnReg x y) s = .next t ∧
      (t.reg 15#4).toNat = (if (s.reg y).toNat ≥ (s.reg x).toNat then 1 else 0) ∧
      (x ≠ 15#4 → (t.reg x).toNat = ((s.reg y).toNat + 256 - (s.reg x).toNat) % 256) ∧
      Frame (only [.reg x, .reg 15#4]) s t

/-- SHR Vx and SHL Vx shift V[X] in place by one, whatever the Y field holds; VF, written last, is the bit shifted out
(R128, R130, R131; in place is the spec's decision D11, log 18). -/
def Obligations.ShiftsByOne : Prop :=
  ∀ (x y : Nibble) (s : State), ∃ t u,
    exec (.shr x y) s = .next t ∧ exec (.shl x y) s = .next u ∧
      (t.reg 15#4).toNat = (s.reg x).toNat % 2 ∧ (u.reg 15#4).toNat = (s.reg x).toNat / 128 ∧
      (x ≠ 15#4 → (t.reg x).toNat = (s.reg x).toNat / 2 ∧ (u.reg x).toNat = 2 * (s.reg x).toNat % 256) ∧
      Frame (only [.reg x, .reg 15#4]) s t ∧ Frame (only [.reg x, .reg 15#4]) s u

/-! ### Index register and memory -/

/-- LD I, NNN and ADD I, Vx: I alone is written, with no flag, ADD I modulo 65536 (R140, R141). -/
def Obligations.IndexLoadAndAdd : Prop :=
  ∀ (nnn : Addr) (x : Nibble) (s : State), ∃ t u,
    exec (.ldI nnn) s = .next t ∧ exec (.addI x) s = .next u ∧
      t.index.toNat = nnn.toNat ∧ u.index.toNat = (s.index.toNat + (s.reg x).toNat) % 65536 ∧
      Frame (only [.index]) s t ∧ Frame (only [.index]) s u

/-- LD F, Vx with a digit 0..15: I <- 5 * V[X], and memory is not touched (R142; the font's order is the spec's decision
D15, log 4). -/
def Obligations.FontAddressOfDigit : Prop :=
  ∀ (x : Nibble) (s : State), (s.reg x).toNat ≤ 15 →
    ∃ t, exec (.ldF x) s = .next t ∧ t.index.toNat = 5 * (s.reg x).toNat ∧ Frame (only [.index]) s t

/-- LD F, SKP and SKNP with V[X] > 15 raise OperandRange and change nothing else (R142, R188, R204, the spec's decisions
D13, D14; log 19). -/
def Obligations.OperandRangeFaults : Prop :=
  ∀ (x : Nibble) (s : State), 15 < (s.reg x).toNat →
    ∀ p ∈ [(Instr.ldF x, 0xF029), (Instr.skp x, 0xE09E), (Instr.sknp x, 0xE0A1)],
      ∃ t op, exec p.1 s = .next t ∧ t.run = .halted (.fault .operandRange) ∧
        t.fault = some ⟨.operandRange, s.pc - 2#16, op⟩ ∧ op.toNat = p.2 + 256 * x.toNat ∧
        Frame (only [.run, .fault]) s t

/-- LD B, Vx writes the hundreds, tens and ones of V[X] at I, I + 1, I + 2, each address reduced mod 4096; I is unchanged
(R143, R146; I unchanged is the spec's decision D12, log 18). -/
def Obligations.DecimalStore : Prop :=
  ∀ (x : Nibble) (s : State),
    ∃ t, exec (.ldB x) s = .next t ∧
      (t.mem.read ((s.index.toNat + 0) % 4096)).toNat = (s.reg x).toNat / 100 ∧
      (t.mem.read ((s.index.toNat + 1) % 4096)).toNat = (s.reg x).toNat / 10 % 10 ∧
      (t.mem.read ((s.index.toNat + 2) % 4096)).toNat = (s.reg x).toNat % 10 ∧
      Frame (only (bytePieces s.index 3)) s t

/-- LD [I], Vx writes V[0] .. V[X] at I .. I + X, each address reduced mod 4096; I is unchanged (R144, R146; D12,
log 18). -/
def Obligations.BlockStore : Prop :=
  ∀ (x : Nibble) (s : State),
    ∃ t, exec (.storeRegs x) s = .next t ∧
      (∀ k : Nibble, k.toNat ≤ x.toNat → t.mem.read ((s.index.toNat + k.toNat) % 4096) = s.reg k) ∧
      Frame (only (bytePieces s.index (x.toNat + 1))) s t

/-- LD Vx, [I] reads V[0] .. V[X] from I .. I + X, each address reduced mod 4096; registers above X, memory and I are
unchanged (R145, R146; D12, log 18). -/
def Obligations.BlockLoad : Prop :=
  ∀ (x : Nibble) (s : State),
    ∃ t, exec (.loadRegs x) s = .next t ∧
      (∀ k : Nibble, k.toNat ≤ x.toNat → t.reg k = s.mem.read ((s.index.toNat + k.toNat) % 4096)) ∧
      Frame (only (regPieces (x.toNat + 1))) s t

/-- The block store followed by the block load with the same count and the same I restores every register stored,
whatever the registers hold in between (42_index_memory.md R144, R145, R146, 95_test_vectors.md S7). -/
def Obligations.BlockRoundTrip : Prop :=
  ∀ (x : Nibble) (s t b : State), exec (.storeRegs x) s = .next t → b.mem = t.mem → b.index = t.index →
    ∃ u, exec (.loadRegs x) b = .next u ∧ (∀ k : Nibble, k.toNat ≤ x.toNat → u.reg k = s.reg k) ∧
      (∀ k : Nibble, x.toNat < k.toNat → u.reg k = b.reg k)

/-- A store into the two bytes at PC is what the next fetch reads: there is no prefetch (R64, R61). -/
def Obligations.StoreIsSeenByTheNextFetch : Prop :=
  ∀ (x : Nibble) (s t : State), 1 ≤ x.toNat → s.index.toNat % 4096 = s.pc.toNat % 4096 →
    exec (.storeRegs x) s = .next t →
    (fetchWord t.mem t.pc).toNat = 256 * (s.reg 0#4).toNat + (s.reg 1#4).toNat

/-! ### Display -/

/-- CLS makes every cell false and emits DisplayChanged exactly when some cell was true; nothing else changes
(R160). -/
def Obligations.ClearScreen : Prop :=
  ∀ s : State,
    ∃ t, exec .cls s = .next t ∧ (∀ cx cy, t.fb.cell cx cy = false) ∧
      ((∃ cx cy, s.fb.cell cx cy = true) → t.trace = .displayChanged :: s.trace) ∧
      ((∀ cx cy, s.fb.cell cx cy = false) → t.trace = s.trace) ∧
      Frame (onlyAndCells [.trace]) s t

/-- DRW Vx, Vy, N in closed form: every cell a set bit addresses is toggled, every other cell is unchanged, VF is 1 when
some toggled cell was true and 0 otherwise, DisplayChanged is emitted once exactly when some bit is set, and nothing else
changes, I and memory included (R161, R162, R163; origin and bit order are the spec's decision D16, log 17). -/
def Obligations.DrawSprite : Prop :=
  ∀ (x y n : Nibble) (s : State),
    ∃ t, exec (.drw x y n) s = .next t ∧
      (∀ cx cy, spriteLights s x y n cx cy → t.fb.cell cx cy = !s.fb.cell cx cy) ∧
      (∀ cx cy, ¬ spriteLights s x y n cx cy → t.fb.cell cx cy = s.fb.cell cx cy) ∧
      ((∃ cx cy, spriteLights s x y n cx cy ∧ s.fb.cell cx cy = true) → t.reg 15#4 = 1#8) ∧
      (¬ (∃ cx cy, spriteLights s x y n cx cy ∧ s.fb.cell cx cy = true) → t.reg 15#4 = 0#8) ∧
      ((∃ cx cy, spriteLights s x y n cx cy) → t.trace = .displayChanged :: s.trace) ∧
      (¬ (∃ cx cy, spriteLights s x y n cx cy) → t.trace = s.trace) ∧
      Frame (onlyAndCells [.reg 15#4, .trace]) s t

/-- Drawing the identical sprite twice at the same origin restores every cell, and the second draw's flag is 1 exactly
when the first draw lit some cell (43_display.md R161, R163, 95_test_vectors.md S6). That condition follows the pseudocode of
R161 and departs from R163's parenthesis, by which the flag is 1 as soon as the sprite has a set bit: where every set bit meets
a lit cell at the first draw, the second finds only dark cells (log 22). The same origin is a premise because with X or Y = 15
the first draw's flag moves it. -/
def Obligations.DrawTwiceRestores : Prop :=
  ∀ (x y n : Nibble) (s t u : State), exec (.drw x y n) s = .next t → t.reg x = s.reg x → t.reg y = s.reg y →
    exec (.drw x y n) t = .next u →
    (∀ cx cy, u.fb.cell cx cy = s.fb.cell cx cy) ∧
      (u.reg 15#4 = 1#8 ↔ ∃ cx cy, s.fb.cell cx cy = false ∧ t.fb.cell cx cy = true)

/-- DisplayChanged is emitted exactly once by an instruction that changed some framebuffer cell, and by no other
instruction; only CLS and DRW change one (R164, R165; for DRW this is the spec's own derivation from R163). -/
def Obligations.DisplayChangedIffCellsChanged : Prop :=
  ∀ (i : Instr) (s t : State), exec i s = .next t →
    (t.fb ≠ s.fb → t.trace = .displayChanged :: s.trace ∧ (i = .cls ∨ ∃ x y n, i = .drw x y n)) ∧
    (t.fb = s.fb → t.trace = s.trace)

/-! ### Keypad, timers, random -/

/-- SKP and SKNP with a key code 0..15 test the level of KEYS[V[X]] and skip accordingly; nothing else changes
(R180, R181). -/
def Obligations.KeySkips : Prop :=
  ∀ (x k : Nibble) (s : State), (s.reg x).toNat = k.toNat →
    ∃ t u, exec (.skp x) s = .next t ∧ exec (.sknp x) s = .next u ∧
      t.pc.toNat = (if s.key k = true then (s.pc.toNat + 2) % 65536 else s.pc.toNat) ∧
      u.pc.toNat = (if s.key k = true then s.pc.toNat else (s.pc.toNat + 2) % 65536) ∧
      Frame (only [.pc]) s t ∧ Frame (only [.pc]) s u

/-- LD Vx, K: RUN <- WaitKey(X), nothing else changes, whatever keys are held (R182). -/
def Obligations.KeyWaitBegins : Prop :=
  ∀ (x : Nibble) (s : State),
    ∃ t, exec (.ldVxK x) s = .next t ∧ t.run = .waitKey x ∧ Frame (only [.run]) s t

/-- KeyPress(k) completes a key wait: V[x] <- zext_8(k), RUN <- Running, PC unchanged; in any other run state the event is
dropped (R183, R219; dropping is the spec's decision D21; that the completion is the host's move is log 12). -/
def Obligations.KeyPressCompletesTheWait : Prop :=
  ∀ (k : Nibble) (s : State) (rest : List Move), s.schedule = .keyPress k :: rest →
    ∃ t, step s = .next t ∧ t.schedule = rest ∧
      (∀ x, s.run = .waitKey x →
        (t.reg x).toNat = k.toNat ∧ t.run = .running ∧ Frame (only [.reg x, .run, .schedule]) s t) ∧
      ((∀ x, s.run ≠ .waitKey x) → Frame (only [.schedule]) s t)

/-- LD Vx, DT; LD DT, Vx; LD ST, Vx (R184, R185, R186). -/
def Obligations.TimerAccess : Prop :=
  ∀ (x : Nibble) (s : State), ∃ t u v,
    exec (.ldVxDt x) s = .next t ∧ exec (.ldDtVx x) s = .next u ∧ exec (.ldStVx x) s = .next v ∧
      t.reg x = s.dt ∧ u.dt = s.reg x ∧ v.st = s.reg x ∧
      Frame (only [.reg x]) s t ∧ Frame (only [.dt]) s u ∧ Frame (only [.st]) s v

/-- RND Vx, NN: V[X] <- r AND NN for a free byte r, so no bit outside NN is set and NN = 0 gives 0; each execution draws
anew (R187; the draw is the spec's decision D26, its counter the model's, log 3; true whatever Config.randomByte is). -/
def Obligations.MaskedRandom : Prop :=
  ∀ (x : Nibble) (nn : Byte) (s : State),
    ∃ t, exec (.rnd x nn) s = .next t ∧
      (∀ j, (t.reg x).getLsbD j = ((Config.randomByte s.draws).getLsbD j && nn.getLsbD j)) ∧
      (t.reg x).toNat ≤ nn.toNat ∧ t.draws = s.draws + 1 ∧ Frame (only [.reg x, .draws]) s t

/-- A tick lowers both timers by 1, clamped at 0, in one step and in every run state, and touches nothing else
(R213, R216; one step for both is the spec's decision D19, ticks in every run state D20). -/
def Obligations.TickCountsDown : Prop :=
  ∀ (s : State) (rest : List Move), s.schedule = .tick :: rest →
    ∃ t, step s = .next t ∧ t.schedule = rest ∧ t.dt.toNat = s.dt.toNat - 1 ∧ t.st.toNat = s.st.toNat - 1 ∧
      Frame (only [.dt, .st, .schedule]) s t

/-- A timer never rises unless an instruction sets it or the machine is reset: at any step DT falls by at most 1, or the
step executed LD DT, Vx, or it was a reset; ST likewise (R214). -/
def Obligations.TimersOnlyFallUnlessSet : Prop :=
  ∀ s t : State, step s = .next t → (∀ rom rest, s.schedule ≠ .reset rom :: rest) →
    ((t.dt.toNat ≤ s.dt.toNat ∧ s.dt.toNat ≤ t.dt.toNat + 1) ∨
      ∃ x, engineTurn s ∧ decodeWord (fetchWord s.mem s.pc) = .instr (.ldDtVx x)) ∧
    ((t.st.toNat ≤ s.st.toNat ∧ s.st.toNat ≤ t.st.toNat + 1) ∨
      ∃ x, engineTurn s ∧ decodeWord (fetchWord s.mem s.pc) = .instr (.ldStVx x))

/-! ### The host -/

/-- The host sets or clears one KEYS flag, in any run state, and nothing else (R218; one flag a step is the spec's
decision D36). -/
def Obligations.HostSetsOneKey : Prop :=
  ∀ (k : Nibble) (d : Bool) (s : State) (rest : List Move), s.schedule = .setKey k d :: rest →
    ∃ t, step s = .next t ∧ t.schedule = rest ∧ t.key k = d ∧ Frame (only [.key k, .schedule]) s t

/-- Cancel halts a running or waiting engine, writing no register and leaving FAULT invalid, and has no effect in Halted
(R211, R208; that it is accepted in Running is the spec's decision D22). -/
def Obligations.CancelHalts : Prop :=
  ∀ (s : State) (rest : List Move), s.schedule = .cancel :: rest →
    ∃ t, step s = .next t ∧ t.schedule = rest ∧
      ((∀ c, s.run ≠ .halted c) → t.run = .halted .cancelled ∧ Frame (only [.run, .schedule]) s t) ∧
      (∀ c, s.run = .halted c → Frame (only [.schedule]) s t)

/-- Reset(ROM) with at most 3584 bytes, from any state: byte k of the image at 512 + k, FONT at 0..79, every other byte
zero, PC = 512, RUN = Running, FAULT invalid, and every other piece zero or false (R240, R241, R244, R43; the zero values
are the spec's decisions D6 and D17, log 5; the model's own records stay, log 13). -/
def Obligations.ResetLoadsTheRom : Prop :=
  ∀ (rom : List Byte) (s : State) (rest : List Move), s.schedule = .reset rom :: rest → rom.length ≤ 3584 →
    ∃ t, step s = .next t ∧ t.schedule = rest ∧
      (∀ k b, rom[k]? = some b → t.mem.read (512 + k) = b) ∧
      (∀ a (h : a < 80), t.mem.read a = s.mem.font[a]) ∧
      (∀ a, 80 ≤ a → a < 512 ∨ 512 + rom.length ≤ a → t.mem.read a = 0#8) ∧
      t.pc = 512#16 ∧ t.run = .running ∧ t.fault = none ∧ (∀ x, t.reg x = 0#8) ∧ t.index = 0#16 ∧
      t.sp = 0#4 ∧ (∀ k, t.slot k = 0#16) ∧ t.dt = 0#8 ∧ t.st = 0#8 ∧ (∀ k, t.key k = false) ∧
      (∀ cx cy, t.fb.cell cx cy = false) ∧ t.mem.font = s.mem.font ∧ t.draws = s.draws ∧ t.trace = s.trace

/-- Reset(ROM) with more than 3584 bytes is refused with LoadFailure and no machine results (R205, R241; decision
D25, log 14). -/
def Obligations.OversizedRomIsRefused : Prop :=
  ∀ (rom : List Byte) (s : State) (rest : List Move), s.schedule = .reset rom :: rest → 3584 < rom.length →
    step s = .refused .loadFailure

/-! ### Whole-machine rules -/

/-- The invariant holds at reset (R32, R25; the reset values of memory and of slot 0 are the spec's D17, log 5). -/
def Obligations.ResetMeetsTheInvariant : Prop :=
  State.reset.Inv

/-- Every step of every agent keeps the invariant: memory stays in canonical form; FAULT is valid exactly in Halted with a
fault cause, names that cause, an address 2 below PC and a word that raises it, and the state still shows why; slot 0 of
the stack is never written (R25, R32, R200, R206, R207, R208). -/
def Obligations.StepKeepsTheInvariant : Prop :=
  ∀ s t : State, s.Inv → step s = .next t → t.Inv

/-- Halted is absorbing: no step but a reset changes RUN, FAULT, or anything but the timers, the keys and the schedule
(R208, R216). -/
def Obligations.HaltedIsAbsorbing : Prop :=
  ∀ (s t : State) (c : StopCause), s.run = .halted c → step s = .next t →
    (∀ rom rest, s.schedule ≠ .reset rom :: rest) →
    Frame (fun p => p = .dt ∨ p = .st ∨ p = .schedule ∨ ∃ k, p = .key k) s t

/-- Every instruction leaves PC at A + 2, except a taken skip (A + 4), JP, CALL, JP V0 and RET (R23). -/
def Obligations.PcAdvanceRule : Prop :=
  ∀ (i : Instr) (s t : State), exec i s = .next t →
    t.pc = s.pc ∨
    (t.pc = s.pc + 2#16 ∧
      ((∃ x nn, i = .seImm x nn) ∨ (∃ x nn, i = .sneImm x nn) ∨ (∃ x y, i = .seReg x y) ∨
        (∃ x y, i = .sneReg x y) ∨ (∃ x, i = .skp x) ∨ (∃ x, i = .sknp x))) ∨
    (∃ nnn, i = .jp nnn) ∨ (∃ nnn, i = .call nnn) ∨ (∃ nnn, i = .jpV0 nnn) ∨ i = .ret

/-- The only registers an instruction writes are those it names as its destination and, for ADD Vx, Vy, SUB, SHR, SUBN,
SHL and DRW, VF, to which each of them writes exactly 0 or 1 (R20, R21). -/
def Obligations.RegisterWriteRule : Prop :=
  ∀ (i : Instr) (s t : State), exec i s = .next t →
    (∀ r : Nibble, t.reg r ≠ s.reg r → namedDest i r = true ∨ (r = 15#4 ∧ writesFlag i = true)) ∧
    (writesFlag i = true → t.reg 15#4 = 0#8 ∨ t.reg 15#4 = 1#8)

/-- Who writes what: no instruction writes KEYS, the font parameter or the schedule; I changes only by LD I, ADD I, LD F;
SP and STACK only by CALL and RET; DT only by LD DT; ST only by LD ST; memory only by LD B and LD [I]; draws only by RND
(R22, R24, R25, R26, R27, R28, R42, R58). -/
def Obligations.WriteRights : Prop :=
  ∀ (i : Instr) (s t : State), exec i s = .next t →
    t.keys = s.keys ∧ t.mem.font = s.mem.font ∧ t.schedule = s.schedule ∧
    (t.index = s.index ∨ (∃ nnn, i = .ldI nnn) ∨ (∃ x, i = .addI x) ∨ ∃ x, i = .ldF x) ∧
    ((t.sp = s.sp ∧ t.stack = s.stack) ∨ (∃ nnn, i = .call nnn) ∨ (i = .ret ∧ t.stack = s.stack)) ∧
    (t.dt = s.dt ∨ ∃ x, i = .ldDtVx x) ∧ (t.st = s.st ∨ ∃ x, i = .ldStVx x) ∧
    (t.mem = s.mem ∨ (∃ x, i = .ldB x) ∨ ∃ x, i = .storeRegs x) ∧
    (t.draws = s.draws ∨ ∃ x nn, i = .rnd x nn)

/-- No instruction reads ST, RUN or FAULT: changing them before an instruction changes nothing else after it
(R27, R31, R32). -/
def Obligations.NoInstructionReadsStRunFault : Prop :=
  ∀ (i : Instr) (s : State) (b : Byte) (r : RunState) (f : Option FaultRecord), ∃ t u,
    exec i s = .next t ∧ exec i { s with st := b, run := r, fault := f } = .next u ∧
      Frame (only [.st, .run, .fault]) t u

/-- The pieces a frame speaks of are the whole state: two states with canonical memories that agree on every piece are
equal, so no frame leaves a field out (10_state.md R33, R34, R35: there is no other state). -/
def Obligations.PiecesAreTheWholeState : Prop :=
  ∀ s t : State, s.mem.wf → t.mem.wf → (∀ p : Piece, p.same s t) → s = t

/-- A program that has reached a jump to itself stays there: the engine's step changes nothing but the schedule
(R251, R101). -/
def Obligations.SelfJumpChangesNothing : Prop :=
  ∀ s : State, atSelfJump s → engineTurn s →
    ∃ t, step s = .next t ∧ t.schedule = s.schedule.tail ∧ Frame (only [.schedule]) s t
end

