-- ==== Sys2Proof/Laws/Decode.lean ====
section
/-! SUPPORT. The fields of a word built by a format, and a word rebuilt from its fields (spec/30_encoding.md R71,
R72). -/

namespace Sys2Proof

/-! ### Fields of the formats -/

/-- Concatenation as a number (R7). -/
theorem toNat_append_add {m n : Nat} (a : BitVec m) (b : BitVec n) :
    (a ++ b).toNat = a.toNat * 2 ^ n + b.toNat := by
  rw [BitVec.toNat_append, ← Nat.shiftLeft_add_eq_or_of_lt b.isLt, Nat.shiftLeft_eq]

/-- An ADDR word as a number (R72). -/
theorem toNat_fmtAddr (t : Nibble) (nnn : Addr) : (fmtAddr t nnn).toNat = t.toNat * 4096 + nnn.toNat :=
  toNat_append_add t nnn

/-- A REG_IMM word as a number (R72). -/
theorem toNat_fmtRegImm (t x : Nibble) (nn : Byte) :
    (fmtRegImm t x nn).toNat = t.toNat * 4096 + x.toNat * 256 + nn.toNat := by
  have h : (fmtRegImm t x nn).toNat = (t ++ x).toNat * 2 ^ 8 + nn.toNat := toNat_append_add (t ++ x) nn
  rw [h, toNat_append_add]; omega

/-- A REG_REG or REG_REG_N word as a number (R72). -/
theorem toNat_fmtRegReg (t x y n : Nibble) :
    (fmtRegReg t x y n).toNat = t.toNat * 4096 + x.toNat * 256 + y.toNat * 16 + n.toNat := by
  have h : (fmtRegReg t x y n).toNat = (t ++ x).toNat * 2 ^ 8 + (y ++ n).toNat :=
    toNat_append_add (t ++ x) (y ++ n)
  rw [h, toNat_append_add, toNat_append_add]; omega

/-- The fields of a word as numbers (R71). -/
theorem toNat_opTop (w : Word) : (opTop w).toNat = w.toNat / 4096 := by
  have := w.isLt
  simp only [opTop, BitVec.extractLsb'_toNat, Nat.shiftRight_eq_div_pow]; omega

theorem toNat_opX (w : Word) : (opX w).toNat = w.toNat / 256 % 16 := by
  simp only [opX, BitVec.extractLsb'_toNat, Nat.shiftRight_eq_div_pow]

theorem toNat_opY (w : Word) : (opY w).toNat = w.toNat / 16 % 16 := by
  simp only [opY, BitVec.extractLsb'_toNat, Nat.shiftRight_eq_div_pow]

theorem toNat_opN (w : Word) : (opN w).toNat = w.toNat % 16 := by
  simp only [opN, BitVec.extractLsb'_toNat, Nat.shiftRight_zero]

theorem toNat_opNN (w : Word) : (opNN w).toNat = w.toNat % 256 := by
  simp only [opNN, BitVec.extractLsb'_toNat, Nat.shiftRight_zero]

theorem toNat_opNNN (w : Word) : (opNNN w).toNat = w.toNat % 4096 := by
  simp only [opNNN, BitVec.extractLsb'_toNat, Nat.shiftRight_zero]

@[simp] theorem opTop_fmtAddr (t : Nibble) (nnn : Addr) : opTop (fmtAddr t nnn) = t := by
  apply BitVec.eq_of_toNat_eq
  have := nnn.isLt
  rw [toNat_opTop, toNat_fmtAddr]; omega

@[simp] theorem opNNN_fmtAddr (t : Nibble) (nnn : Addr) : opNNN (fmtAddr t nnn) = nnn := by
  apply BitVec.eq_of_toNat_eq
  have := nnn.isLt
  rw [toNat_opNNN, toNat_fmtAddr]; omega

@[simp] theorem opTop_fmtRegImm (t x : Nibble) (nn : Byte) : opTop (fmtRegImm t x nn) = t := by
  apply BitVec.eq_of_toNat_eq
  have := t.isLt; have := x.isLt; have := nn.isLt
  rw [toNat_opTop, toNat_fmtRegImm]; omega

@[simp] theorem opX_fmtRegImm (t x : Nibble) (nn : Byte) : opX (fmtRegImm t x nn) = x := by
  apply BitVec.eq_of_toNat_eq
  have := t.isLt; have := x.isLt; have := nn.isLt
  rw [toNat_opX, toNat_fmtRegImm]; omega

@[simp] theorem opNN_fmtRegImm (t x : Nibble) (nn : Byte) : opNN (fmtRegImm t x nn) = nn := by
  apply BitVec.eq_of_toNat_eq
  have := t.isLt; have := x.isLt; have := nn.isLt
  rw [toNat_opNN, toNat_fmtRegImm]; omega

@[simp] theorem opTop_fmtRegReg (t x y n : Nibble) : opTop (fmtRegReg t x y n) = t := by
  apply BitVec.eq_of_toNat_eq
  have := t.isLt; have := x.isLt; have := y.isLt; have := n.isLt
  rw [toNat_opTop, toNat_fmtRegReg]; omega

@[simp] theorem opX_fmtRegReg (t x y n : Nibble) : opX (fmtRegReg t x y n) = x := by
  apply BitVec.eq_of_toNat_eq
  have := t.isLt; have := x.isLt; have := y.isLt; have := n.isLt
  rw [toNat_opX, toNat_fmtRegReg]; omega

@[simp] theorem opY_fmtRegReg (t x y n : Nibble) : opY (fmtRegReg t x y n) = y := by
  apply BitVec.eq_of_toNat_eq
  have := t.isLt; have := x.isLt; have := y.isLt; have := n.isLt
  rw [toNat_opY, toNat_fmtRegReg]; omega

@[simp] theorem opN_fmtRegReg (t x y n : Nibble) : opN (fmtRegReg t x y n) = n := by
  apply BitVec.eq_of_toNat_eq
  have := t.isLt; have := x.isLt; have := y.isLt; have := n.isLt
  rw [toNat_opN, toNat_fmtRegReg]; omega

/-! ### A word from its fields -/

theorem fmtAddr_fields (w : Word) : fmtAddr (opTop w) (opNNN w) = w := by
  apply BitVec.eq_of_toNat_eq
  rw [toNat_fmtAddr, toNat_opTop, toNat_opNNN]; omega

theorem fmtRegImm_fields (w : Word) : fmtRegImm (opTop w) (opX w) (opNN w) = w := by
  apply BitVec.eq_of_toNat_eq
  rw [toNat_fmtRegImm, toNat_opTop, toNat_opX, toNat_opNN]; omega

theorem fmtRegReg_fields (w : Word) : fmtRegReg (opTop w) (opX w) (opY w) (opN w) = w := by
  apply BitVec.eq_of_toNat_eq
  rw [toNat_fmtRegReg, toNat_opTop, toNat_opX, toNat_opY, toNat_opN]; omega

/-! ### Rows of the opcode map -/

theorem bit_cases {i : Nat} (h : i < 16) : i = 0 ∨ i = 1 ∨ i = 2 ∨ i = 3 ∨ i = 4 ∨ i = 5 ∨ i = 6 ∨ i = 7 ∨
    i = 8 ∨ i = 9 ∨ i = 10 ∨ i = 11 ∨ i = 12 ∨ i = 13 ∨ i = 14 ∨ i = 15 := by omega

/-- The masks of the opcode map as fields: F000 looks at T, F00F at T and N, F0FF at T and NN (R75). -/
theorem and_F000 (w : Word) : w &&& 0xF000#16 = fmtRegImm (opTop w) 0#4 0#8 := by
  apply BitVec.eq_of_getLsbD_eq
  intro i hi
  simp only [fmtRegImm, opTop, BitVec.getLsbD_and, BitVec.getLsbD_append, BitVec.getLsbD_extractLsb']
  rcases bit_cases hi with h | h | h | h | h | h | h | h | h | h | h | h | h | h | h | h <;> subst h <;> simp

theorem and_F00F (w : Word) : w &&& 0xF00F#16 = fmtRegReg (opTop w) 0#4 0#4 (opN w) := by
  apply BitVec.eq_of_getLsbD_eq
  intro i hi
  simp only [fmtRegReg, opTop, opN, BitVec.getLsbD_and, BitVec.getLsbD_append, BitVec.getLsbD_extractLsb']
  rcases bit_cases hi with h | h | h | h | h | h | h | h | h | h | h | h | h | h | h | h <;> subst h <;> simp

theorem and_F0FF (w : Word) : w &&& 0xF0FF#16 = fmtRegImm (opTop w) 0#4 (opNN w) := by
  apply BitVec.eq_of_getLsbD_eq
  intro i hi
  simp only [fmtRegImm, opTop, opNN, BitVec.getLsbD_and, BitVec.getLsbD_append, BitVec.getLsbD_extractLsb']
  rcases bit_cases hi with h | h | h | h | h | h | h | h | h | h | h | h | h | h | h | h <;> subst h <;> simp

/-- When a row with each of the masks selects a word, as numbers (R75). -/
theorem selects_F000 (p w : Word) : OpcodeRow.selects ⟨0xF000#16, p⟩ w = true ↔ w.toNat / 4096 * 4096 = p.toNat := by
  simp only [OpcodeRow.selects, and_F000, beq_iff_eq]
  rw [← BitVec.toNat_inj, toNat_fmtRegImm, toNat_opTop]
  simp

theorem selects_F00F (p w : Word) :
    OpcodeRow.selects ⟨0xF00F#16, p⟩ w = true ↔ w.toNat / 4096 * 4096 + w.toNat % 16 = p.toNat := by
  simp only [OpcodeRow.selects, and_F00F, beq_iff_eq]
  rw [← BitVec.toNat_inj, toNat_fmtRegReg, toNat_opTop, toNat_opN]
  simp

theorem selects_F0FF (p w : Word) :
    OpcodeRow.selects ⟨0xF0FF#16, p⟩ w = true ↔ w.toNat / 4096 * 4096 + w.toNat % 256 = p.toNat := by
  simp only [OpcodeRow.selects, and_F0FF, beq_iff_eq]
  rw [← BitVec.toNat_inj, toNat_fmtRegImm, toNat_opTop, toNat_opNN]
  simp

theorem selects_FFFF (p w : Word) : OpcodeRow.selects ⟨0xFFFF#16, p⟩ w = true ↔ w.toNat = p.toNat := by
  have h : w &&& 0xFFFF#16 = w := BitVec.and_allOnes
  simp only [OpcodeRow.selects, h, beq_iff_eq, BitVec.toNat_inj]

end Sys2Proof
end

