-- ==== Sys2Proof/Laws/State.lean ====
section
/-! SUPPORT. What each named update of the state does to each field, and what the accessors read after an update. -/

namespace Sys2Proof.Machine

/-! ### setReg -/

@[simp] theorem State.setReg_v (s : State) (x : Nibble) (b : Byte) :
    (s.setReg x b).v = s.v.set x.toNat b := rfl
@[simp] theorem State.setReg_index (s : State) (x : Nibble) (b : Byte) : (s.setReg x b).index = s.index := rfl
@[simp] theorem State.setReg_pc (s : State) (x : Nibble) (b : Byte) : (s.setReg x b).pc = s.pc := rfl
@[simp] theorem State.setReg_sp (s : State) (x : Nibble) (b : Byte) : (s.setReg x b).sp = s.sp := rfl
@[simp] theorem State.setReg_stack (s : State) (x : Nibble) (b : Byte) : (s.setReg x b).stack = s.stack := rfl
@[simp] theorem State.setReg_dt (s : State) (x : Nibble) (b : Byte) : (s.setReg x b).dt = s.dt := rfl
@[simp] theorem State.setReg_st (s : State) (x : Nibble) (b : Byte) : (s.setReg x b).st = s.st := rfl
@[simp] theorem State.setReg_keys (s : State) (x : Nibble) (b : Byte) : (s.setReg x b).keys = s.keys := rfl
@[simp] theorem State.setReg_fb (s : State) (x : Nibble) (b : Byte) : (s.setReg x b).fb = s.fb := rfl
@[simp] theorem State.setReg_mem (s : State) (x : Nibble) (b : Byte) : (s.setReg x b).mem = s.mem := rfl
@[simp] theorem State.setReg_run (s : State) (x : Nibble) (b : Byte) : (s.setReg x b).run = s.run := rfl
@[simp] theorem State.setReg_fault (s : State) (x : Nibble) (b : Byte) : (s.setReg x b).fault = s.fault := rfl
@[simp] theorem State.setReg_draws (s : State) (x : Nibble) (b : Byte) : (s.setReg x b).draws = s.draws := rfl
@[simp] theorem State.setReg_schedule (s : State) (x : Nibble) (b : Byte) :
    (s.setReg x b).schedule = s.schedule := rfl
@[simp] theorem State.setReg_trace (s : State) (x : Nibble) (b : Byte) : (s.setReg x b).trace = s.trace := rfl

/-! ### setSlot -/

@[simp] theorem State.setSlot_v (s : State) (k : Nibble) (w : Word) : (s.setSlot k w).v = s.v := rfl
@[simp] theorem State.setSlot_index (s : State) (k : Nibble) (w : Word) :
    (s.setSlot k w).index = s.index := rfl
@[simp] theorem State.setSlot_pc (s : State) (k : Nibble) (w : Word) : (s.setSlot k w).pc = s.pc := rfl
@[simp] theorem State.setSlot_sp (s : State) (k : Nibble) (w : Word) : (s.setSlot k w).sp = s.sp := rfl
@[simp] theorem State.setSlot_stack (s : State) (k : Nibble) (w : Word) :
    (s.setSlot k w).stack = s.stack.set k.toNat w := rfl
@[simp] theorem State.setSlot_dt (s : State) (k : Nibble) (w : Word) : (s.setSlot k w).dt = s.dt := rfl
@[simp] theorem State.setSlot_st (s : State) (k : Nibble) (w : Word) : (s.setSlot k w).st = s.st := rfl
@[simp] theorem State.setSlot_keys (s : State) (k : Nibble) (w : Word) : (s.setSlot k w).keys = s.keys := rfl
@[simp] theorem State.setSlot_fb (s : State) (k : Nibble) (w : Word) : (s.setSlot k w).fb = s.fb := rfl
@[simp] theorem State.setSlot_mem (s : State) (k : Nibble) (w : Word) : (s.setSlot k w).mem = s.mem := rfl
@[simp] theorem State.setSlot_run (s : State) (k : Nibble) (w : Word) : (s.setSlot k w).run = s.run := rfl
@[simp] theorem State.setSlot_fault (s : State) (k : Nibble) (w : Word) :
    (s.setSlot k w).fault = s.fault := rfl
@[simp] theorem State.setSlot_draws (s : State) (k : Nibble) (w : Word) :
    (s.setSlot k w).draws = s.draws := rfl
@[simp] theorem State.setSlot_schedule (s : State) (k : Nibble) (w : Word) :
    (s.setSlot k w).schedule = s.schedule := rfl
@[simp] theorem State.setSlot_trace (s : State) (k : Nibble) (w : Word) :
    (s.setSlot k w).trace = s.trace := rfl

/-! ### setKey -/

@[simp] theorem State.setKey_v (s : State) (k : Nibble) (d : Bool) : (s.setKey k d).v = s.v := rfl
@[simp] theorem State.setKey_index (s : State) (k : Nibble) (d : Bool) : (s.setKey k d).index = s.index := rfl
@[simp] theorem State.setKey_pc (s : State) (k : Nibble) (d : Bool) : (s.setKey k d).pc = s.pc := rfl
@[simp] theorem State.setKey_sp (s : State) (k : Nibble) (d : Bool) : (s.setKey k d).sp = s.sp := rfl
@[simp] theorem State.setKey_stack (s : State) (k : Nibble) (d : Bool) : (s.setKey k d).stack = s.stack := rfl
@[simp] theorem State.setKey_dt (s : State) (k : Nibble) (d : Bool) : (s.setKey k d).dt = s.dt := rfl
@[simp] theorem State.setKey_st (s : State) (k : Nibble) (d : Bool) : (s.setKey k d).st = s.st := rfl
@[simp] theorem State.setKey_keys (s : State) (k : Nibble) (d : Bool) :
    (s.setKey k d).keys = s.keys.set k.toNat d := rfl
@[simp] theorem State.setKey_fb (s : State) (k : Nibble) (d : Bool) : (s.setKey k d).fb = s.fb := rfl
@[simp] theorem State.setKey_mem (s : State) (k : Nibble) (d : Bool) : (s.setKey k d).mem = s.mem := rfl
@[simp] theorem State.setKey_run (s : State) (k : Nibble) (d : Bool) : (s.setKey k d).run = s.run := rfl
@[simp] theorem State.setKey_fault (s : State) (k : Nibble) (d : Bool) : (s.setKey k d).fault = s.fault := rfl
@[simp] theorem State.setKey_draws (s : State) (k : Nibble) (d : Bool) : (s.setKey k d).draws = s.draws := rfl
@[simp] theorem State.setKey_schedule (s : State) (k : Nibble) (d : Bool) :
    (s.setKey k d).schedule = s.schedule := rfl
@[simp] theorem State.setKey_trace (s : State) (k : Nibble) (d : Bool) : (s.setKey k d).trace = s.trace := rfl

/-! ### advance -/

@[simp] theorem State.advance_v (s : State) : (s.advance).v = s.v := rfl
@[simp] theorem State.advance_index (s : State) : (s.advance).index = s.index := rfl
@[simp] theorem State.advance_pc (s : State) : (s.advance).pc = s.pc + 2#16 := rfl
@[simp] theorem State.advance_sp (s : State) : (s.advance).sp = s.sp := rfl
@[simp] theorem State.advance_stack (s : State) : (s.advance).stack = s.stack := rfl
@[simp] theorem State.advance_dt (s : State) : (s.advance).dt = s.dt := rfl
@[simp] theorem State.advance_st (s : State) : (s.advance).st = s.st := rfl
@[simp] theorem State.advance_keys (s : State) : (s.advance).keys = s.keys := rfl
@[simp] theorem State.advance_fb (s : State) : (s.advance).fb = s.fb := rfl
@[simp] theorem State.advance_mem (s : State) : (s.advance).mem = s.mem := rfl
@[simp] theorem State.advance_run (s : State) : (s.advance).run = s.run := rfl
@[simp] theorem State.advance_fault (s : State) : (s.advance).fault = s.fault := rfl
@[simp] theorem State.advance_draws (s : State) : (s.advance).draws = s.draws := rfl
@[simp] theorem State.advance_schedule (s : State) : (s.advance).schedule = s.schedule := rfl
@[simp] theorem State.advance_trace (s : State) : (s.advance).trace = s.trace := rfl

/-! ### storeByte -/

@[simp] theorem State.storeByte_v (s : State) (base : Word) (k : Nat) (b : Byte) :
    (s.storeByte base k b).v = s.v := rfl
@[simp] theorem State.storeByte_index (s : State) (base : Word) (k : Nat) (b : Byte) :
    (s.storeByte base k b).index = s.index := rfl
@[simp] theorem State.storeByte_pc (s : State) (base : Word) (k : Nat) (b : Byte) :
    (s.storeByte base k b).pc = s.pc := rfl
@[simp] theorem State.storeByte_sp (s : State) (base : Word) (k : Nat) (b : Byte) :
    (s.storeByte base k b).sp = s.sp := rfl
@[simp] theorem State.storeByte_stack (s : State) (base : Word) (k : Nat) (b : Byte) :
    (s.storeByte base k b).stack = s.stack := rfl
@[simp] theorem State.storeByte_dt (s : State) (base : Word) (k : Nat) (b : Byte) :
    (s.storeByte base k b).dt = s.dt := rfl
@[simp] theorem State.storeByte_st (s : State) (base : Word) (k : Nat) (b : Byte) :
    (s.storeByte base k b).st = s.st := rfl
@[simp] theorem State.storeByte_keys (s : State) (base : Word) (k : Nat) (b : Byte) :
    (s.storeByte base k b).keys = s.keys := rfl
@[simp] theorem State.storeByte_fb (s : State) (base : Word) (k : Nat) (b : Byte) :
    (s.storeByte base k b).fb = s.fb := rfl
@[simp] theorem State.storeByte_mem (s : State) (base : Word) (k : Nat) (b : Byte) :
    (s.storeByte base k b).mem = s.mem.write (memAddr base k) b := rfl
@[simp] theorem State.storeByte_run (s : State) (base : Word) (k : Nat) (b : Byte) :
    (s.storeByte base k b).run = s.run := rfl
@[simp] theorem State.storeByte_fault (s : State) (base : Word) (k : Nat) (b : Byte) :
    (s.storeByte base k b).fault = s.fault := rfl
@[simp] theorem State.storeByte_draws (s : State) (base : Word) (k : Nat) (b : Byte) :
    (s.storeByte base k b).draws = s.draws := rfl
@[simp] theorem State.storeByte_schedule (s : State) (base : Word) (k : Nat) (b : Byte) :
    (s.storeByte base k b).schedule = s.schedule := rfl
@[simp] theorem State.storeByte_trace (s : State) (base : Word) (k : Nat) (b : Byte) :
    (s.storeByte base k b).trace = s.trace := rfl

/-! ### raise -/

@[simp] theorem State.raise_v (s : State) (k : FaultKind) (op : Word) : (s.raise k op).v = s.v := rfl
@[simp] theorem State.raise_index (s : State) (k : FaultKind) (op : Word) :
    (s.raise k op).index = s.index := rfl
@[simp] theorem State.raise_pc (s : State) (k : FaultKind) (op : Word) : (s.raise k op).pc = s.pc := rfl
@[simp] theorem State.raise_sp (s : State) (k : FaultKind) (op : Word) : (s.raise k op).sp = s.sp := rfl
@[simp] theorem State.raise_stack (s : State) (k : FaultKind) (op : Word) :
    (s.raise k op).stack = s.stack := rfl
@[simp] theorem State.raise_dt (s : State) (k : FaultKind) (op : Word) : (s.raise k op).dt = s.dt := rfl
@[simp] theorem State.raise_st (s : State) (k : FaultKind) (op : Word) : (s.raise k op).st = s.st := rfl
@[simp] theorem State.raise_keys (s : State) (k : FaultKind) (op : Word) : (s.raise k op).keys = s.keys := rfl
@[simp] theorem State.raise_fb (s : State) (k : FaultKind) (op : Word) : (s.raise k op).fb = s.fb := rfl
@[simp] theorem State.raise_mem (s : State) (k : FaultKind) (op : Word) : (s.raise k op).mem = s.mem := rfl
@[simp] theorem State.raise_run (s : State) (k : FaultKind) (op : Word) :
    (s.raise k op).run = .halted (.fault k) := rfl
@[simp] theorem State.raise_fault (s : State) (k : FaultKind) (op : Word) :
    (s.raise k op).fault = some ⟨k, s.pc - 2#16, op⟩ := rfl
@[simp] theorem State.raise_draws (s : State) (k : FaultKind) (op : Word) :
    (s.raise k op).draws = s.draws := rfl
@[simp] theorem State.raise_schedule (s : State) (k : FaultKind) (op : Word) :
    (s.raise k op).schedule = s.schedule := rfl
@[simp] theorem State.raise_trace (s : State) (k : FaultKind) (op : Word) :
    (s.raise k op).trace = s.trace := rfl

/-! ### tick -/

@[simp] theorem State.tick_v (s : State) : (s.tick).v = s.v := rfl
@[simp] theorem State.tick_index (s : State) : (s.tick).index = s.index := rfl
@[simp] theorem State.tick_pc (s : State) : (s.tick).pc = s.pc := rfl
@[simp] theorem State.tick_sp (s : State) : (s.tick).sp = s.sp := rfl
@[simp] theorem State.tick_stack (s : State) : (s.tick).stack = s.stack := rfl
@[simp] theorem State.tick_dt (s : State) : (s.tick).dt = countDown s.dt := rfl
@[simp] theorem State.tick_st (s : State) : (s.tick).st = countDown s.st := rfl
@[simp] theorem State.tick_keys (s : State) : (s.tick).keys = s.keys := rfl
@[simp] theorem State.tick_fb (s : State) : (s.tick).fb = s.fb := rfl
@[simp] theorem State.tick_mem (s : State) : (s.tick).mem = s.mem := rfl
@[simp] theorem State.tick_run (s : State) : (s.tick).run = s.run := rfl
@[simp] theorem State.tick_fault (s : State) : (s.tick).fault = s.fault := rfl
@[simp] theorem State.tick_draws (s : State) : (s.tick).draws = s.draws := rfl
@[simp] theorem State.tick_schedule (s : State) : (s.tick).schedule = s.schedule := rfl
@[simp] theorem State.tick_trace (s : State) : (s.tick).trace = s.trace := rfl

/-! ### setFlag -/

@[simp] theorem State.setFlag_v (s : State) (c : Bool) : (s.setFlag c).v = s.v.set 15 (flagByte c) := rfl
@[simp] theorem State.setFlag_index (s : State) (c : Bool) : (s.setFlag c).index = s.index := rfl
@[simp] theorem State.setFlag_pc (s : State) (c : Bool) : (s.setFlag c).pc = s.pc := rfl
@[simp] theorem State.setFlag_sp (s : State) (c : Bool) : (s.setFlag c).sp = s.sp := rfl
@[simp] theorem State.setFlag_stack (s : State) (c : Bool) : (s.setFlag c).stack = s.stack := rfl
@[simp] theorem State.setFlag_dt (s : State) (c : Bool) : (s.setFlag c).dt = s.dt := rfl
@[simp] theorem State.setFlag_st (s : State) (c : Bool) : (s.setFlag c).st = s.st := rfl
@[simp] theorem State.setFlag_keys (s : State) (c : Bool) : (s.setFlag c).keys = s.keys := rfl
@[simp] theorem State.setFlag_fb (s : State) (c : Bool) : (s.setFlag c).fb = s.fb := rfl
@[simp] theorem State.setFlag_mem (s : State) (c : Bool) : (s.setFlag c).mem = s.mem := rfl
@[simp] theorem State.setFlag_run (s : State) (c : Bool) : (s.setFlag c).run = s.run := rfl
@[simp] theorem State.setFlag_fault (s : State) (c : Bool) : (s.setFlag c).fault = s.fault := rfl
@[simp] theorem State.setFlag_draws (s : State) (c : Bool) : (s.setFlag c).draws = s.draws := rfl
@[simp] theorem State.setFlag_schedule (s : State) (c : Bool) : (s.setFlag c).schedule = s.schedule := rfl
@[simp] theorem State.setFlag_trace (s : State) (c : Bool) : (s.setFlag c).trace = s.trace := rfl

/-! ### setResultFlag -/

@[simp] theorem State.setResultFlag_v (s : State) (x : Nibble) (r : Byte) (c : Bool) :
    (s.setResultFlag x r c).v = (s.v.set x.toNat r).set 15 (flagByte c) := rfl
@[simp] theorem State.setResultFlag_index (s : State) (x : Nibble) (r : Byte) (c : Bool) :
    (s.setResultFlag x r c).index = s.index := rfl
@[simp] theorem State.setResultFlag_pc (s : State) (x : Nibble) (r : Byte) (c : Bool) :
    (s.setResultFlag x r c).pc = s.pc := rfl
@[simp] theorem State.setResultFlag_sp (s : State) (x : Nibble) (r : Byte) (c : Bool) :
    (s.setResultFlag x r c).sp = s.sp := rfl
@[simp] theorem State.setResultFlag_stack (s : State) (x : Nibble) (r : Byte) (c : Bool) :
    (s.setResultFlag x r c).stack = s.stack := rfl
@[simp] theorem State.setResultFlag_dt (s : State) (x : Nibble) (r : Byte) (c : Bool) :
    (s.setResultFlag x r c).dt = s.dt := rfl
@[simp] theorem State.setResultFlag_st (s : State) (x : Nibble) (r : Byte) (c : Bool) :
    (s.setResultFlag x r c).st = s.st := rfl
@[simp] theorem State.setResultFlag_keys (s : State) (x : Nibble) (r : Byte) (c : Bool) :
    (s.setResultFlag x r c).keys = s.keys := rfl
@[simp] theorem State.setResultFlag_fb (s : State) (x : Nibble) (r : Byte) (c : Bool) :
    (s.setResultFlag x r c).fb = s.fb := rfl
@[simp] theorem State.setResultFlag_mem (s : State) (x : Nibble) (r : Byte) (c : Bool) :
    (s.setResultFlag x r c).mem = s.mem := rfl
@[simp] theorem State.setResultFlag_run (s : State) (x : Nibble) (r : Byte) (c : Bool) :
    (s.setResultFlag x r c).run = s.run := rfl
@[simp] theorem State.setResultFlag_fault (s : State) (x : Nibble) (r : Byte) (c : Bool) :
    (s.setResultFlag x r c).fault = s.fault := rfl
@[simp] theorem State.setResultFlag_draws (s : State) (x : Nibble) (r : Byte) (c : Bool) :
    (s.setResultFlag x r c).draws = s.draws := rfl
@[simp] theorem State.setResultFlag_schedule (s : State) (x : Nibble) (r : Byte) (c : Bool) :
    (s.setResultFlag x r c).schedule = s.schedule := rfl
@[simp] theorem State.setResultFlag_trace (s : State) (x : Nibble) (r : Byte) (c : Bool) :
    (s.setResultFlag x r c).trace = s.trace := rfl

/-! ### skipIf -/

@[simp] theorem State.skipIf_v (s : State) (c : Bool) : (s.skipIf c).v = s.v := by cases c <;> rfl
@[simp] theorem State.skipIf_index (s : State) (c : Bool) : (s.skipIf c).index = s.index := by cases c <;> rfl
@[simp] theorem State.skipIf_pc (s : State) (c : Bool) :
    (s.skipIf c).pc = if c then s.pc + 2#16 else s.pc := by cases c <;> rfl
@[simp] theorem State.skipIf_sp (s : State) (c : Bool) : (s.skipIf c).sp = s.sp := by cases c <;> rfl
@[simp] theorem State.skipIf_stack (s : State) (c : Bool) : (s.skipIf c).stack = s.stack := by cases c <;> rfl
@[simp] theorem State.skipIf_dt (s : State) (c : Bool) : (s.skipIf c).dt = s.dt := by cases c <;> rfl
@[simp] theorem State.skipIf_st (s : State) (c : Bool) : (s.skipIf c).st = s.st := by cases c <;> rfl
@[simp] theorem State.skipIf_keys (s : State) (c : Bool) : (s.skipIf c).keys = s.keys := by cases c <;> rfl
@[simp] theorem State.skipIf_fb (s : State) (c : Bool) : (s.skipIf c).fb = s.fb := by cases c <;> rfl
@[simp] theorem State.skipIf_mem (s : State) (c : Bool) : (s.skipIf c).mem = s.mem := by cases c <;> rfl
@[simp] theorem State.skipIf_run (s : State) (c : Bool) : (s.skipIf c).run = s.run := by cases c <;> rfl
@[simp] theorem State.skipIf_fault (s : State) (c : Bool) : (s.skipIf c).fault = s.fault := by cases c <;> rfl
@[simp] theorem State.skipIf_draws (s : State) (c : Bool) : (s.skipIf c).draws = s.draws := by cases c <;> rfl
@[simp] theorem State.skipIf_schedule (s : State) (c : Bool) :
    (s.skipIf c).schedule = s.schedule := by cases c <;> rfl
@[simp] theorem State.skipIf_trace (s : State) (c : Bool) : (s.skipIf c).trace = s.trace := by cases c <;> rfl

/-! ### emitIf -/

@[simp] theorem State.emitIf_v (s : State) (c : Bool) : (s.emitIf c).v = s.v := by cases c <;> rfl
@[simp] theorem State.emitIf_index (s : State) (c : Bool) : (s.emitIf c).index = s.index := by cases c <;> rfl
@[simp] theorem State.emitIf_pc (s : State) (c : Bool) : (s.emitIf c).pc = s.pc := by cases c <;> rfl
@[simp] theorem State.emitIf_sp (s : State) (c : Bool) : (s.emitIf c).sp = s.sp := by cases c <;> rfl
@[simp] theorem State.emitIf_stack (s : State) (c : Bool) : (s.emitIf c).stack = s.stack := by cases c <;> rfl
@[simp] theorem State.emitIf_dt (s : State) (c : Bool) : (s.emitIf c).dt = s.dt := by cases c <;> rfl
@[simp] theorem State.emitIf_st (s : State) (c : Bool) : (s.emitIf c).st = s.st := by cases c <;> rfl
@[simp] theorem State.emitIf_keys (s : State) (c : Bool) : (s.emitIf c).keys = s.keys := by cases c <;> rfl
@[simp] theorem State.emitIf_fb (s : State) (c : Bool) : (s.emitIf c).fb = s.fb := by cases c <;> rfl
@[simp] theorem State.emitIf_mem (s : State) (c : Bool) : (s.emitIf c).mem = s.mem := by cases c <;> rfl
@[simp] theorem State.emitIf_run (s : State) (c : Bool) : (s.emitIf c).run = s.run := by cases c <;> rfl
@[simp] theorem State.emitIf_fault (s : State) (c : Bool) : (s.emitIf c).fault = s.fault := by cases c <;> rfl
@[simp] theorem State.emitIf_draws (s : State) (c : Bool) : (s.emitIf c).draws = s.draws := by cases c <;> rfl
@[simp] theorem State.emitIf_schedule (s : State) (c : Bool) :
    (s.emitIf c).schedule = s.schedule := by cases c <;> rfl
@[simp] theorem State.emitIf_trace (s : State) (c : Bool) :
    (s.emitIf c).trace = if c then .displayChanged :: s.trace else s.trace := by cases c <;> rfl

/-! ### Accessors after updates -/

/-- A register holds what was last written to it, and a write to another register does not touch it (R20). -/
@[simp] theorem State.reg_setReg (s : State) (x y : Nibble) (b : Byte) :
    (s.setReg x b).reg y = if x = y then b else s.reg y := by
  simp only [State.reg, State.setReg, Vector.getElem_set, BitVec.toNat_inj]

/-- The flag write is a write of V[15], and nothing else (R21). -/
@[simp] theorem State.reg_setFlag (s : State) (c : Bool) (y : Nibble) :
    (s.setFlag c).reg y = if y = Config.flagReg then flagByte c else s.reg y := by
  simp only [State.setFlag, State.reg_setReg, eq_comm]

/-- VF ends holding the flag, and the result stands in V[X] unless X = 15 (R131). -/
theorem State.reg_setResultFlag (s : State) (x y : Nibble) (r : Byte) (c : Bool) :
    (s.setResultFlag x r c).reg y =
      if y = Config.flagReg then flagByte c else if x = y then r else s.reg y := by
  simp only [State.setResultFlag, State.reg_setFlag, State.reg_setReg]

/-- A slot holds what was last written to it (R25). -/
@[simp] theorem State.slot_setSlot (s : State) (j k : Nibble) (w : Word) :
    (s.setSlot j w).slot k = if j = k then w else s.slot k := by
  simp only [State.slot, State.setSlot, Vector.getElem_set, BitVec.toNat_inj]

/-- A key flag holds what was last set (R218). -/
@[simp] theorem State.key_setKey (s : State) (j k : Nibble) (d : Bool) :
    (s.setKey j d).key k = if j = k then d else s.key k := by
  simp only [State.key, State.setKey, Vector.getElem_set, BitVec.toNat_inj]

/-- What an accessor reads depends on its own field alone. -/
theorem State.reg_congr {s t : State} (h : t.v = s.v) (x : Nibble) : t.reg x = s.reg x := by
  simp only [State.reg, h]

theorem State.slot_congr {s t : State} (h : t.stack = s.stack) (k : Nibble) : t.slot k = s.slot k := by
  simp only [State.slot, h]

theorem State.key_congr {s t : State} (h : t.keys = s.keys) (k : Nibble) : t.key k = s.key k := by
  simp only [State.key, h]

/-! ### Block store and load -/

/-- Everything a block store does to the fields: it changes memory only (R144, R146). -/
theorem State.storeRange_fields (s : State) (n : Nat) :
    s.storeRange n = { s with mem := (s.storeRange n).mem } := by
  induction n with
  | zero => rfl
  | succ n ih =>
    simp only [State.storeRange, State.storeByte]
    rw [ih]

/-- Everything a block load does to the fields: it changes V only (R145, R146). -/
theorem State.loadRange_fields (s : State) (n : Nat) :
    s.loadRange n = { s with v := (s.loadRange n).v } := by
  induction n with
  | zero => rfl
  | succ n ih =>
    simp only [State.loadRange, State.setReg]
    rw [ih]

end Sys2Proof.Machine
end

