-- ==== Sys2Proof/Laws/Memory.lean ====
section
/-! SUPPORT. Memory: a read after a write, the canonical form, addresses, block store and load, the ROM image. -/

namespace Sys2Proof.Machine

/-! ### Cells -/

theorem lookupCell_storeCell (a c : Nat) (b : Byte) (cs : List Host.Cell) :
    lookupCell c (storeCell a b cs) = if c = a then some b else lookupCell c cs := by
  induction cs with
  | nil => simp only [storeCell, lookupCell, eq_comm]
  | cons h t ih =>
    obtain ⟨k, d⟩ := h
    by_cases hca : c = a
    · subst hca
      simp only [storeCell]
      split
      · simp [lookupCell]
      · split
        · simp [lookupCell]
        · simp [lookupCell, ih, Ne.symm ‹¬c = k›]
    · simp only [storeCell, if_neg hca]
      split
      · simp [lookupCell, Ne.symm hca]
      · split
        · subst_vars; simp [lookupCell, Ne.symm hca]
        · simp only [lookupCell, ih, if_neg hca]

theorem lookupCell_eraseCell (a c : Nat) (cs : List Host.Cell) :
    lookupCell c (eraseCell a cs) = if c = a then none else lookupCell c cs := by
  induction cs with
  | nil => simp only [eraseCell, lookupCell, ite_self]
  | cons h t ih =>
    obtain ⟨k, d⟩ := h
    simp only [eraseCell]
    split
    · subst_vars; simp only [lookupCell, ih]; split <;> first | rfl | (split <;> first | rfl | omega)
    · simp only [lookupCell, ih]; split <;> split <;> first | rfl | omega

theorem mem_storeCell {a : Nat} {b : Byte} {cs : List Host.Cell} {e : Host.Cell}
    (h : e ∈ storeCell a b cs) : e = (a, b) ∨ e ∈ cs := by
  induction cs with
  | nil => simpa [storeCell] using h
  | cons c t ih =>
    obtain ⟨k, d⟩ := c
    simp only [storeCell] at h
    split at h
    · simpa using h
    · split at h
      · rcases List.mem_cons.mp h with h | h
        · exact .inl h
        · exact .inr (List.mem_cons_of_mem _ h)
      · rcases List.mem_cons.mp h with h | h
        · exact .inr (h ▸ List.mem_cons_self)
        · exact (ih h).imp_right (List.mem_cons_of_mem _)

theorem mem_eraseCell {a : Nat} {cs : List Host.Cell} {e : Host.Cell}
    (h : e ∈ eraseCell a cs) : e ∈ cs := by
  induction cs with
  | nil => exact h
  | cons c t ih =>
    obtain ⟨k, d⟩ := c
    simp only [eraseCell] at h
    split at h
    · exact List.mem_cons_of_mem _ (ih h)
    · rcases List.mem_cons.mp h with h | h
      · exact h ▸ List.mem_cons_self
      · exact List.mem_cons_of_mem _ (ih h)

theorem rising_storeCell {a : Nat} {b : Byte} {cs : List Host.Cell}
    (h : (cs.map Prod.fst).Pairwise (· < ·)) :
    ((storeCell a b cs).map Prod.fst).Pairwise (· < ·) := by
  induction cs with
  | nil => simp [storeCell]
  | cons c t ih =>
    obtain ⟨k, d⟩ := c
    rw [List.map_cons, List.pairwise_cons] at h
    simp only [storeCell]
    split
    · rw [List.map_cons, List.map_cons, List.pairwise_cons, List.pairwise_cons]
      refine ⟨fun n hn => ?_, h⟩
      rcases List.mem_cons.mp hn with hn | hn
      · simpa [hn] using ‹a < k›
      · exact Nat.lt_trans ‹a < k› (h.1 n hn)
    · split
      · subst_vars; rw [List.map_cons, List.pairwise_cons]; exact h
      · rw [List.map_cons, List.pairwise_cons]
        refine ⟨fun n hn => ?_, ih h.2⟩
        obtain ⟨e, he, rfl⟩ := List.mem_map.mp hn
        rcases mem_storeCell he with rfl | he
        · simp only; omega
        · exact h.1 _ (List.mem_map_of_mem he)

theorem rising_eraseCell {a : Nat} {cs : List Host.Cell}
    (h : (cs.map Prod.fst).Pairwise (· < ·)) :
    ((eraseCell a cs).map Prod.fst).Pairwise (· < ·) := by
  induction cs with
  | nil => exact h
  | cons c t ih =>
    obtain ⟨k, d⟩ := c
    rw [List.map_cons, List.pairwise_cons] at h
    simp only [eraseCell]
    split
    · exact ih h.2
    · rw [List.map_cons, List.pairwise_cons]
      refine ⟨fun n hn => ?_, ih h.2⟩
      obtain ⟨e, he, rfl⟩ := List.mem_map.mp hn
      exact h.1 _ (List.mem_map_of_mem (mem_eraseCell he))

/-! ### Read and write -/

@[simp] theorem Memory.write_font (m : Memory) (a : Nat) (b : Byte) : (m.write a b).font = m.font := by
  unfold Memory.write; split <;> rfl

/-- What an unlisted address reads as depends on the font alone. -/
theorem Memory.base_congr {m m' : Memory} (h : m'.font = m.font) (a : Nat) : m'.base a = m.base a := by
  simp only [Memory.base, h]

/-- A read gives the byte last written there, and a write leaves every other address alone (R54). -/
@[simp] theorem Memory.read_write (m : Memory) (a c : Nat) (b : Byte) :
    (m.write a b).read c = if c = a then b else m.read c := by
  have hbase : (m.write a b).base c = m.base c := Memory.base_congr (m.write_font a b) c
  simp only [Memory.read, hbase]
  by_cases hb : b = m.base a
  · simp only [Memory.write, if_pos hb, lookupCell_eraseCell]
    by_cases hc : c = a
    · simp [hc, hb]
    · simp [hc]
  · simp only [Memory.write, if_neg hb, lookupCell_storeCell]
    by_cases hc : c = a <;> simp [hc]

/-- A write inside memory keeps the canonical form. -/
theorem Memory.wf_write {m : Memory} (h : m.wf) {a : Nat} (ha : a < Config.memSize) (b : Byte) :
    (m.write a b).wf := by
  have hf : ∀ c, (m.write a b).base c = m.base c := Memory.base_congr (m.write_font a b)
  simp only [Memory.wf, hf]
  unfold Memory.write
  split
  · exact ⟨rising_eraseCell h.1, fun c hc => h.2 c (mem_eraseCell hc)⟩
  · rename_i hb
    refine ⟨rising_storeCell h.1, fun c hc => ?_⟩
    rcases mem_storeCell hc with rfl | hc
    · exact ⟨ha, hb⟩
    · exact h.2 c hc

/-! ### Equal memories are equal data -/

theorem lookupCell_none_of_lt {a : Nat} {cs : List Host.Cell} (h : ∀ n ∈ cs.map Prod.fst, a < n) :
    lookupCell a cs = none := by
  induction cs with
  | nil => rfl
  | cons c t ih =>
    obtain ⟨k, d⟩ := c
    have hk : a < k := h k List.mem_cons_self
    rw [lookupCell, if_neg (by omega)]
    exact ih fun n hn => h n (List.mem_cons_of_mem _ hn)

/-- Rising lists of cells with the same lookups are the same list. -/
theorem cells_ext {cs ds : List Host.Cell} (hc : (cs.map Prod.fst).Pairwise (· < ·))
    (hd : (ds.map Prod.fst).Pairwise (· < ·)) (h : ∀ a, lookupCell a cs = lookupCell a ds) : cs = ds := by
  induction cs generalizing ds with
  | nil =>
    cases ds with
    | nil => rfl
    | cons d t => have := h d.1; simp [lookupCell] at this
  | cons c t ih =>
    obtain ⟨k, b⟩ := c
    cases ds with
    | nil => have := h k; simp [lookupCell] at this
    | cons d u =>
      obtain ⟨j, e⟩ := d
      rw [List.map_cons, List.pairwise_cons] at hc hd
      have hk := h k
      have hj := h j
      have hkj : k = j := by
        rcases Nat.lt_trichotomy k j with l | l | l
        · rw [lookupCell, if_pos rfl, lookupCell, if_neg (by omega),
            lookupCell_none_of_lt fun n hn => Nat.lt_trans l (hd.1 n hn)] at hk
          cases hk
        · exact l
        · rw [lookupCell, lookupCell, if_neg (by omega), if_pos rfl,
            lookupCell_none_of_lt fun n hn => Nat.lt_trans l (hc.1 n hn)] at hj
          cases hj
      subst hkj
      simp only [lookupCell, if_true, Option.some.injEq] at hk
      subst hk
      congr 1
      refine ih hc.2 hd.2 fun a => ?_
      by_cases ha : k = a
      · subst ha
        rw [lookupCell_none_of_lt hc.1, lookupCell_none_of_lt hd.1]
      · have := h a
        rwa [lookupCell, lookupCell, if_neg ha, if_neg ha] at this

theorem mem_of_lookupCell {a : Nat} {b : Byte} {cs : List Host.Cell} (h : lookupCell a cs = some b) :
    (a, b) ∈ cs := by
  induction cs with
  | nil => cases h
  | cons c t ih =>
    obtain ⟨k, d⟩ := c
    rw [lookupCell] at h
    split at h
    · cases h; subst_vars; exact List.mem_cons_self
    · exact List.mem_cons_of_mem _ (ih h)

/-- What a canonical memory lists at an address: the byte read there, when it is not what the address reads as
unlisted. -/
theorem Memory.lookup_of_wf {m : Memory} (h : m.wf) (a : Nat) :
    lookupCell a m.cells = if m.read a = m.base a then none else some (m.read a) := by
  unfold Memory.read
  cases e : lookupCell a m.cells with
  | none => simp
  | some b =>
    have := (h.2 _ (mem_of_lookupCell e)).2
    simp [this]

/-- Canonical memories with the same font that read the same everywhere are equal. -/
theorem Memory.ext_read {m n : Memory} (hm : m.wf) (hn : n.wf) (hf : m.font = n.font)
    (h : ∀ a, m.read a = n.read a) : m = n := by
  have hc : m.cells = n.cells := cells_ext hm.1 hn.1 fun a => by
    rw [Memory.lookup_of_wf hm, Memory.lookup_of_wf hn, h a, Memory.base_congr hf a]
  cases m; cases n
  simp_all

/-! ### Addresses -/

theorem memAddr_lt (base : Word) (k : Nat) : memAddr base k < Config.memSize :=
  Nat.mod_lt _ (by decide)

/-- Different offsets within the size of memory are different addresses (R60). -/
theorem memAddr_inj {base : Word} {j k : Nat} (hj : j < 4096) (hk : k < 4096)
    (h : memAddr base j = memAddr base k) : j = k := by
  simp only [memAddr, Config.memSize] at h; omega

/-- A byte store keeps the canonical form. -/
theorem State.storeByte_wf {s : State} (h : s.mem.wf) (base : Word) (k : Nat) (b : Byte) :
    (s.storeByte base k b).mem.wf :=
  Memory.wf_write h (memAddr_lt base k) b

/-! ### Block store and load -/

theorem State.storeRange_wf {s : State} (h : s.mem.wf) (n : Nat) : (s.storeRange n).mem.wf := by
  induction n with
  | zero => exact h
  | succ n ih => exact State.storeByte_wf ih _ _ _

theorem State.storeRange_font (s : State) (n : Nat) : (s.storeRange n).mem.font = s.mem.font := by
  induction n with
  | zero => rfl
  | succ n ih => simpa [State.storeRange] using ih

/-- A byte the store does not reach reads as before (R144). -/
theorem State.storeRange_read_other (s : State) (n a : Nat) (h : ∀ k < n, a ≠ memAddr s.index k) :
    (s.storeRange n).mem.read a = s.mem.read a := by
  induction n with
  | zero => rfl
  | succ n ih =>
    simp only [State.storeRange, State.storeByte_mem, Memory.read_write]
    rw [if_neg (h n (Nat.lt_succ_self n)), ih fun k hk => h k (Nat.lt_succ_of_lt hk)]

/-- The byte at I + k reads as V[k] after the store (R144). -/
theorem State.storeRange_read (s : State) {n k : Nat} (hn : n ≤ 16) (hk : k < n) :
    (s.storeRange n).mem.read (memAddr s.index k) = s.reg (BitVec.ofNat 4 k) := by
  induction n with
  | zero => omega
  | succ n ih =>
    simp only [State.storeRange, State.storeByte_mem, Memory.read_write]
    by_cases hkn : k = n
    · rw [if_pos (by rw [hkn]), hkn]
    · rw [if_neg fun h => hkn (memAddr_inj (by omega) (by omega) h)]
      exact ih (by omega) (by omega)

/-- After the load V[y] is the byte at I + y for the registers loaded, and as before for the others (R145). -/
theorem State.loadRange_reg (s : State) {n : Nat} (hn : n ≤ 16) (y : Nibble) :
    (s.loadRange n).reg y = if y.toNat < n then s.mem.read (memAddr s.index y.toNat) else s.reg y := by
  induction n with
  | zero => rfl
  | succ n ih =>
    simp only [State.loadRange, State.reg_setReg]
    have hy := y.isLt
    by_cases h : BitVec.ofNat 4 n = y
    · have hn' : y.toNat = n := by rw [← h, BitVec.toNat_ofNat]; omega
      rw [if_pos h, if_pos (by omega), hn']; rfl
    · have hn' : y.toNat ≠ n := fun e => h (by rw [← e, BitVec.ofNat_toNat, BitVec.setWidth_eq])
      rw [if_neg h, ih (by omega)]
      by_cases hlt : y.toNat < n
      · rw [if_pos hlt, if_pos (by omega)]
      · rw [if_neg hlt, if_neg (by omega)]

/-! ### ROM image -/

theorem Memory.loadImage_font (m : Memory) (a : Nat) (bs : List Byte) : (m.loadImage a bs).font = m.font := by
  induction bs generalizing m a with
  | nil => rfl
  | cons b bs ih => simp only [Memory.loadImage, ih, Memory.write_font]

theorem Memory.loadImage_wf {m : Memory} (h : m.wf) {a : Nat} {bs : List Byte}
    (ha : a + bs.length ≤ Config.memSize) : (m.loadImage a bs).wf := by
  induction bs generalizing m a with
  | nil => exact h
  | cons b bs ih =>
    rw [List.length_cons] at ha
    exact ih (Memory.wf_write h (by omega) b) (by omega)

/-- A byte of the image reads as itself, every other address as before (R241). -/
theorem Memory.loadImage_read (m : Memory) (a c : Nat) (bs : List Byte) :
    (m.loadImage a bs).read c =
      if h : a ≤ c ∧ c < a + bs.length then bs[c - a]'(by omega) else m.read c := by
  induction bs generalizing m a with
  | nil => rw [dif_neg fun h => by rw [List.length_nil] at h; omega]; rfl
  | cons b bs ih =>
    rw [Memory.loadImage, ih]
    by_cases h1 : a + 1 ≤ c ∧ c < a + 1 + bs.length
    · rw [dif_pos h1, dif_pos (by rw [List.length_cons]; omega)]
      have hc : c - a = (c - (a + 1)) + 1 := by omega
      simp only [hc, List.getElem_cons_succ]
    · rw [dif_neg h1, Memory.read_write]
      by_cases h2 : c = a
      · subst h2
        rw [if_pos rfl, dif_pos (by rw [List.length_cons]; omega)]
        simp
      · rw [if_neg h2, dif_neg (by rw [List.length_cons]; omega)]

/-! ### Fetch -/

theorem wordOfBytes_wordByte (op : Word) : wordOfBytes (wordByte0 op) (wordByte1 op) = op := by
  apply BitVec.eq_of_getLsbD_eq
  intro i hi
  simp only [wordOfBytes, wordByte0, wordByte1, BitVec.getLsbD_append, BitVec.getLsbD_extractLsb']
  by_cases h : i < 8
  · simp [h]
  · simp only [h, if_false]
    rw [show 8 + (i - 8) = i by omega]
    simp; omega

/-- A word placed at PC is the word fetched (R55, R64). -/
theorem State.fetchWord_placeWord (s : State) (op : Word) :
    fetchWord (s.placeWord op).mem (s.placeWord op).pc = op := by
  have h : memAddr s.pc 0 ≠ memAddr s.pc 1 := fun h => by
    have := memAddr_inj (by decide) (by decide) h; omega
  simp only [State.placeWord, fetchWord, Memory.read_write, if_neg h, if_true]
  exact wordOfBytes_wordByte op

end Sys2Proof.Machine
end

