-- ==== Sys2Proof/Laws/Display.lean ====
section
/-! SUPPORT. The framebuffer and the sprite compositor: what a flip does, and the closed form of the DRW loop, in which
every set bit toggles a cell of its own (spec/43_display.md R161 to R163). -/

namespace Sys2Proof.Machine

/-! ### Cells -/

/-- A flip toggles its cell and leaves every other cell alone. -/
theorem Framebuffer.cell_flip (f : Framebuffer) (x x' : Fin 64) (y y' : Fin 32) :
    (f.flip x y).cell x' y' = if x = x' ∧ y = y' then !f.cell x y else f.cell x' y' := by
  simp only [Framebuffer.cell, Framebuffer.flip, Vector.getElem_set]
  by_cases hy : y = y'
  · subst hy
    by_cases hx : x = x'
    · subst hx; simp
    · simp [hx, Fin.val_inj]
  · simp [hy, Fin.val_inj]

@[simp] theorem Framebuffer.cell_blank (x : Fin 64) (y : Fin 32) : Framebuffer.blank.cell x y = false := by
  simp only [Framebuffer.cell, Framebuffer.blank, Vector.getElem_replicate]

/-- `anyLit` is the rule's "exists x, y: FB[x][y] = true" (R160). -/
theorem Framebuffer.anyLit_iff (f : Framebuffer) : f.anyLit = true ↔ ∃ x y, f.cell x y = true := by
  simp only [Framebuffer.anyLit, List.any_eq_true, id, Framebuffer.cell]
  constructor
  · rintro ⟨r, hr, b, hb, rfl⟩
    obtain ⟨y, hy, rfl⟩ := List.mem_iff_getElem.mp hr
    obtain ⟨x, hx, hb⟩ := List.mem_iff_getElem.mp hb
    rw [Vector.length_toList] at hx hy
    exact ⟨⟨x, hx⟩, ⟨y, hy⟩, by simpa using hb⟩
  · rintro ⟨x, y, h⟩
    exact ⟨_, Vector.mem_toList_iff.mpr (Vector.getElem_mem y.isLt), _,
      Vector.mem_toList_iff.mpr (Vector.getElem_mem x.isLt), h⟩

/-- Two framebuffers with the same cells are the same. -/
theorem Framebuffer.ext_cell {f g : Framebuffer} (h : ∀ x y, f.cell x y = g.cell x y) : f = g := by
  obtain ⟨f⟩ := f
  obtain ⟨g⟩ := g
  congr 1
  refine Vector.ext fun y hy => Vector.ext fun x hx => ?_
  exact h ⟨x, hx⟩ ⟨y, hy⟩

/-! ### Sprite coordinates -/

theorem spriteCol_inj {x0 : Byte} {c d : Nat} (hc : c < 8) (hd : d < 8)
    (h : spriteCol x0 c = spriteCol x0 d) : c = d := by
  have h' : (x0.toNat + c) % 64 = (x0.toNat + d) % 64 := congrArg Fin.val h
  omega

theorem spriteRow_inj {y0 : Byte} {r q : Nat} (hr : r < 16) (hq : q < 16)
    (h : spriteRow y0 r = spriteRow y0 q) : r = q := by
  have h' : (y0.toNat + r) % 32 = (y0.toNat + q) % 32 := congrArg Fin.val h
  omega

/-! ### The loop -/

/-- What a part of the DRW loop does when the set bits it draws address exactly the cells P, each once. -/
structure BlitSpec (P : Fin 64 → Fin 32 → Prop) (b b' : Blit) : Prop where
  hit : ∀ x y, P x y → b'.fb.cell x y = !b.fb.cell x y
  miss : ∀ x y, ¬ P x y → b'.fb.cell x y = b.fb.cell x y
  collision : b'.collision = true ↔ b.collision = true ∨ ∃ x y, P x y ∧ b.fb.cell x y = true
  changed : b'.changed = true ↔ b.changed = true ∨ ∃ x y, P x y

theorem BlitSpec.congr {P Q : Fin 64 → Fin 32 → Prop} {b b' : Blit} (h : BlitSpec P b b')
    (e : ∀ x y, P x y ↔ Q x y) : BlitSpec Q b b' := by
  have : P = Q := funext fun x => funext fun y => propext (e x y)
  exact this ▸ h

theorem BlitSpec.refl (b : Blit) : BlitSpec (fun _ _ => False) b b :=
  ⟨fun _ _ h => h.elim, fun _ _ _ => rfl, by simp, by simp⟩

/-- Parts that address different cells compose. -/
theorem BlitSpec.trans {P Q : Fin 64 → Fin 32 → Prop} {b b' b'' : Blit} (h : BlitSpec P b b')
    (k : BlitSpec Q b' b'') (d : ∀ x y, P x y → ¬ Q x y) : BlitSpec (fun x y => P x y ∨ Q x y) b b'' where
  hit x y := by
    rintro (hp | hq)
    · rw [k.miss x y (d x y hp), h.hit x y hp]
    · rw [k.hit x y hq, h.miss x y fun hp => d x y hp hq]
  miss x y hn := by
    rw [not_or] at hn
    rw [k.miss x y hn.2, h.miss x y hn.1]
  collision := by
    rw [k.collision, h.collision, or_assoc]
    refine or_congr_right ⟨?_, ?_⟩
    · rintro (⟨x, y, hp, hc⟩ | ⟨x, y, hq, hc⟩)
      · exact ⟨x, y, .inl hp, hc⟩
      · exact ⟨x, y, .inr hq, by rwa [h.miss x y fun hp => d x y hp hq] at hc⟩
    · rintro ⟨x, y, hp | hq, hc⟩
      · exact .inl ⟨x, y, hp, hc⟩
      · exact .inr ⟨x, y, hq, by rwa [h.miss x y fun hp => d x y hp hq]⟩
  changed := by
    rw [k.changed, h.changed, or_assoc]
    refine or_congr_right ⟨?_, ?_⟩
    · rintro (⟨x, y, hp⟩ | ⟨x, y, hq⟩)
      · exact ⟨x, y, .inl hp⟩
      · exact ⟨x, y, .inr hq⟩
    · rintro ⟨x, y, hp | hq⟩
      · exact .inl ⟨x, y, hp⟩
      · exact .inr ⟨x, y, hq⟩

/-- One pixel (R161). -/
theorem blitBit_spec (x0 y0 : Byte) (r : Nat) (row : Byte) (c : Nat) (b : Blit) :
    BlitSpec (fun x y => spriteBit row c = true ∧ spriteCol x0 c = x ∧ spriteRow y0 r = y) b
      (blitBit x0 y0 r row c b) := by
  unfold blitBit
  split
  · rename_i hb
    refine ⟨?_, ?_, ?_, ?_⟩
    · rintro x y ⟨-, rfl, rfl⟩
      simp [Framebuffer.cell_flip]
    · intro x y hn
      have : ¬ (spriteCol x0 c = x ∧ spriteRow y0 r = y) := fun h => hn ⟨hb, h⟩
      simp [Framebuffer.cell_flip, this]
    · simp only [hb, Bool.or_eq_true, true_and]
      refine or_congr_right ⟨fun h => ⟨_, _, ⟨rfl, rfl⟩, h⟩, ?_⟩
      rintro ⟨x, y, ⟨rfl, rfl⟩, h⟩
      exact h
    · simp [hb]
  · rename_i hb
    exact (BlitSpec.refl b).congr fun x y => by simp [hb]

/-- The first n columns of a sprite row (R161). -/
theorem blitCols_spec (x0 y0 : Byte) (r : Nat) (row : Byte) {n : Nat} (hn : n ≤ 8) (b : Blit) :
    BlitSpec (fun x y => ∃ c, c < n ∧ spriteBit row c = true ∧ spriteCol x0 c = x ∧ spriteRow y0 r = y) b
      (blitCols x0 y0 r row n b) := by
  induction n with
  | zero => exact (BlitSpec.refl b).congr fun x y => by simp
  | succ n ih =>
    refine ((ih (by omega)).trans (blitBit_spec x0 y0 r row n _) ?_).congr ?_
    · rintro x y ⟨c, hc, -, hx, -⟩ ⟨-, hx', -⟩
      have := spriteCol_inj (by omega) (by omega) (hx.trans hx'.symm)
      omega
    · intro x y
      constructor
      · rintro (⟨c, hc, h⟩ | h)
        · exact ⟨c, by omega, h⟩
        · exact ⟨n, by omega, h⟩
      · rintro ⟨c, hc, h⟩
        by_cases hcn : c = n
        · exact .inr (hcn ▸ h)
        · exact .inl ⟨c, by omega, h⟩

/-- The cells the set bits of a sprite's first n rows address (R162). -/
def SpriteCell (m : Memory) (base : Word) (x0 y0 : Byte) (n : Nat) (x : Fin 64) (y : Fin 32) : Prop :=
  ∃ r c, r < n ∧ c < 8 ∧ spriteBit (m.read (memAddr base r)) c = true ∧ spriteCol x0 c = x ∧ spriteRow y0 r = y

/-- The whole loop: every set bit toggles a cell of its own, the collision flag is the disjunction of those cells' old
values, and something changed exactly when some bit is set (R161, R163). -/
theorem blitRows_spec (m : Memory) (base : Word) (x0 y0 : Byte) {n : Nat} (hn : n ≤ 16) (b : Blit) :
    BlitSpec (SpriteCell m base x0 y0 n) b (blitRows m base x0 y0 n b) := by
  induction n with
  | zero => exact (BlitSpec.refl b).congr fun x y => by simp [SpriteCell]
  | succ n ih =>
    refine ((ih (by omega)).trans (blitCols_spec x0 y0 n _ (Nat.le_refl 8) _) ?_).congr ?_
    · rintro x y ⟨r, c, hr, -, -, -, hy⟩ ⟨d, -, -, -, hy'⟩
      have := spriteRow_inj (by omega) (by omega) (hy.trans hy'.symm)
      omega
    · intro x y
      constructor
      · rintro (⟨r, c, hr, h⟩ | ⟨c, h⟩)
        · exact ⟨r, c, by omega, h⟩
        · exact ⟨n, c, by omega, h⟩
      · rintro ⟨r, c, hr, h⟩
        by_cases hrn : r = n
        · exact .inr ⟨c, hrn ▸ h⟩
        · exact .inl ⟨r, c, by omega, h⟩

/-- The DRW loop from a state's framebuffer (R161). -/
theorem drawSprite_spec (s : State) (x y n : Nibble) :
    BlitSpec (SpriteCell s.mem s.index (s.reg x) (s.reg y) n.toNat) ⟨s.fb, false, false⟩ (drawSprite s x y n) :=
  blitRows_spec _ _ _ _ (by have := n.isLt; omega) _

end Sys2Proof.Machine
end

