-- ==== Sys2Proof/Laws/Step.lean ====
section
/-! SUPPORT. What a step can do: the moves of the agents, the cycle, and the ways an instruction can end. -/

namespace Sys2Proof.Machine

/-! ### The step and the moves -/

/-- A step is the head of the schedule, or the engine's move when the schedule is empty (R41). -/
theorem step_cases {s t : State} (h : step s = .next t) :
    (s.schedule = [] ∧ engineMove s = .next t) ∨
      ∃ m rest, s.schedule = m :: rest ∧ applyMove m { s with schedule := rest } = .next t := by
  unfold step nextMove at h
  split at h
  · exact .inl ⟨‹_›, h⟩
  · exact .inr ⟨_, _, ‹_›, h⟩

/-- A step whose schedule has a head is that move (R41). -/
theorem step_of_head {s : State} {m : Move} {rest : List Move} (h : s.schedule = m :: rest) :
    step s = applyMove m { s with schedule := rest } := by
  simp only [step, nextMove, h]

/-- The engine answers a next state only in Running, by a cycle (R31). -/
theorem engineMove_next {s t : State} (h : engineMove s = .next t) : s.run = .running ∧ cycle s = .next t := by
  unfold engineMove at h
  split at h
  · exact ⟨‹_›, h⟩
  · cases h
  · cases h

/-- On the engine's turn a step is a cycle, with the engine's move taken off the schedule (R70). -/
theorem step_of_engineTurn {s : State} (h : engineTurn s) :
    step s = cycle { s with schedule := s.schedule.tail } := by
  obtain ⟨hr, hs | ⟨rest, hs⟩⟩ := h
  · have e : { s with schedule := s.schedule.tail } = s := by rw [hs]; simp only [List.tail]; rw [← hs]
    rw [e]
    simp only [step, nextMove, hs, engineMove, hr]
  · rw [step_of_head hs, hs]
    simp only [applyMove, engineMove, hr, List.tail]

/-- A raise in the execute phase records the address the word was fetched from (R207). -/
theorem raise_advance_fault (s : State) (k : FaultKind) (op : Word) :
    (s.advance.raise k op).fault = some ⟨k, s.pc, op⟩ := by
  simp only [State.raise, State.advance, BitVec.add_sub_cancel]

/-- What each agent's move does when it answers a next state (R40). -/
theorem applyMove_cases {m : Move} {s t : State} (h : applyMove m s = .next t) :
    (m = .engine ∧ s.run = .running ∧ cycle s = .next t) ∨ (m = .tick ∧ t = s.tick) ∨
      (∃ k d, m = .setKey k d ∧ t = s.setKey k d) ∨ (∃ k, m = .keyPress k ∧ t = s.keyPress k) ∨
      (m = .cancel ∧ t = s.cancel) ∨ ∃ rom, m = .reset rom ∧ romWellFormed rom = true ∧ t = s.boot rom := by
  cases m with
  | engine => exact .inl ⟨rfl, engineMove_next h⟩
  | tick => cases h; exact .inr (.inl ⟨rfl, rfl⟩)
  | setKey k d => cases h; exact .inr (.inr (.inl ⟨k, d, rfl, rfl⟩))
  | keyPress k => cases h; exact .inr (.inr (.inr (.inl ⟨k, rfl, rfl⟩)))
  | cancel => cases h; exact .inr (.inr (.inr (.inr (.inl ⟨rfl, rfl⟩))))
  | reset rom =>
    simp only [applyMove, hostReset] at h
    split at h
    · cases h; exact .inr (.inr (.inr (.inr (.inr ⟨rom, rfl, ‹_›, rfl⟩))))
    · cases h

/-- A KeyPress completes a wait or does nothing (R183). -/
theorem keyPress_cases (s : State) (k : Nibble) :
    (∃ x, s.run = .waitKey x ∧ s.keyPress k = { s.setReg x (zextKey k) with run := .running }) ∨
      ((∀ x, s.run ≠ .waitKey x) ∧ s.keyPress k = s) := by
  unfold State.keyPress
  split
  · exact .inl ⟨_, ‹_›, rfl⟩
  · exact .inr ⟨fun x h => by simp_all, rfl⟩
  · exact .inr ⟨fun x h => by simp_all, rfl⟩

/-- A Cancel halts a running or waiting engine or does nothing (R211). -/
theorem cancel_cases (s : State) :
    ((∀ c, s.run ≠ .halted c) ∧ s.cancel = { s with run := .halted .cancelled }) ∨
      (∃ c, s.run = .halted c ∧ s.cancel = s) := by
  unfold State.cancel
  split
  · exact .inl ⟨fun c h => by simp_all, rfl⟩
  · exact .inl ⟨fun c h => by simp_all, rfl⟩
  · exact .inr ⟨_, ‹_›, rfl⟩

/-- The count-down of a timer as a number: one less, clamped at 0 (R213). -/
theorem toNat_countDown (b : Byte) : (countDown b).toNat = b.toNat - 1 := by
  unfold countDown
  split
  · subst_vars; rfl
  · rename_i h
    have : b.toNat ≠ 0 := fun e => h (BitVec.eq_of_toNat_eq e)
    have := b.isLt
    rw [BitVec.toNat_sub]
    simp only [BitVec.toNat_ofNat]
    omega

/-! ### Decode -/

/-- A 16-bit word is never too short. -/
theorem decodeWord_ne_truncated (w : Word) : decodeWord w ≠ .truncated := by
  intro h
  unfold decodeWord decodeZero decodeAlu decodeKey decodeMisc decodeSubZero at h
  repeat' split at h
  all_goals cases h

/-- A cycle executes the decoded instruction, or raises DecodeFailure (R70, R201). -/
theorem cycle_cases {s t : State} (h : cycle s = .next t) :
    (∃ i, decodeWord (fetchWord s.mem s.pc) = .instr i ∧ exec i s.advance = .next t) ∨
      ∃ g, decodeWord (fetchWord s.mem s.pc) = .illegal g ∧
        t = s.advance.raise .decodeFailure (fetchWord s.mem s.pc) := by
  unfold cycle at h
  split at h
  · exact .inl ⟨_, ‹_›, h⟩
  · cases h; exact .inr ⟨_, ‹_›, rfl⟩
  · exact absurd ‹_› (decodeWord_ne_truncated _)

/-! ### Operands -/

theorem nibbleOperand_of_le {b : Byte} (h : b.toNat ≤ 15) : nibbleOperand b = some (b.setWidth 4) := if_pos h

theorem nibbleOperand_of_lt {b : Byte} (h : 15 < b.toNat) : nibbleOperand b = none := if_neg (by omega)

theorem nibbleOperand_none {b : Byte} (h : nibbleOperand b = none) : 15 < b.toNat := by
  unfold nibbleOperand at h
  split at h
  · cases h
  · omega

theorem flagByte_cases (c : Bool) : flagByte c = 0#8 ∨ flagByte c = 1#8 := by cases c <;> simp [flagByte]

theorem toNat_flagByte (c : Bool) : (flagByte c).toNat = if c = true then 1 else 0 := by cases c <;> rfl

/-! ### How an instruction can end -/

/-- An instruction raises a fault its word can raise and the state explains, and then it has done nothing else; or it
begins a key wait; or it leaves RUN and FAULT alone (R182, R200, R206). -/
theorem exec_run_cases {i : Instr} {s t : State} (h : exec i s = .next t) :
    (∃ k, t = s.raise k (encode i) ∧ k.raisedBy (.instr i) = true ∧ k.explained (encode i) s) ∨
      (∃ x, i = .ldVxK x ∧ t = { s with run := .waitKey x }) ∨ (t.run = s.run ∧ t.fault = s.fault) := by
  cases i with
  | ret =>
    simp only [exec, execRet] at h
    split at h
    · cases h; exact .inl ⟨_, rfl, rfl, ‹_›⟩
    · cases h; exact .inr (.inr ⟨rfl, rfl⟩)
  | call nnn =>
    simp only [exec, execCall] at h
    split at h
    · cases h; exact .inl ⟨_, rfl, rfl, ‹_›⟩
    · cases h; exact .inr (.inr ⟨rfl, rfl⟩)
  | ldF x =>
    simp only [exec, execLdF] at h
    split at h
    · cases h; exact .inr (.inr ⟨rfl, rfl⟩)
    · cases h
      exact .inl ⟨_, rfl, rfl, by simpa [FaultKind.explained, encode] using nibbleOperand_none ‹_›⟩
  | skp x =>
    simp only [exec, execSkp] at h
    split at h
    · cases h; exact .inr (.inr (by simp))
    · cases h
      exact .inl ⟨_, rfl, rfl, by simpa [FaultKind.explained, encode] using nibbleOperand_none ‹_›⟩
  | sknp x =>
    simp only [exec, execSknp] at h
    split at h
    · cases h; exact .inr (.inr (by simp))
    · cases h
      exact .inl ⟨_, rfl, rfl, by simpa [FaultKind.explained, encode] using nibbleOperand_none ‹_›⟩
  | ldVxK x => cases h; exact .inr (.inl ⟨x, rfl, rfl⟩)
  | storeRegs x => cases h; rw [State.storeRange_fields]; exact .inr (.inr ⟨rfl, rfl⟩)
  | loadRegs x => cases h; rw [State.loadRange_fields]; exact .inr (.inr ⟨rfl, rfl⟩)
  | _ => cases h; exact .inr (.inr (by simp))

end Sys2Proof.Machine
end

