-- ==== Sys2Proof/Laws/Frame.lean ====
section
/-! SUPPORT. Frames: how they combine, and the frame of every named update. -/

namespace Sys2Proof.Machine

/-! ### Combining frames -/

theorem Frame.refl (P : Piece → Prop) (s : State) : Frame P s s := fun p _ => by cases p <;> rfl

theorem Piece.same_trans {p : Piece} {s t u : State} (h : p.same s t) (k : p.same t u) : p.same s u := by
  cases p <;> exact Eq.trans k h

/-- A frame may touch more than it needs to. -/
theorem Frame.mono {P Q : Piece → Prop} {s t : State} (h : Frame P s t) (e : ∀ p, P p → Q p) : Frame Q s t :=
  fun p hq => h p fun hp => hq (e p hp)

/-- Frames compose. -/
theorem Frame.trans {P Q : Piece → Prop} {s t u : State} (h : Frame P s t) (k : Frame Q t u) :
    Frame (fun p => P p ∨ Q p) s u :=
  fun p hn => Piece.same_trans (h p fun hp => hn (.inl hp)) (k p fun hq => hn (.inr hq))

/-- Frames with the same pieces compose. -/
theorem Frame.trans_same {P : Piece → Prop} {s t u : State} (h : Frame P s t) (k : Frame P t u) : Frame P s u :=
  (h.trans k).mono fun _ hp => hp.elim id id

/-! ### Frames of the updates -/

theorem frame_pc (s : State) (w : Word) : Frame (only [.pc]) s { s with pc := w } := by
  intro p hp; cases p <;> first | rfl | exact absurd (by simp [only]) hp

theorem frame_index (s : State) (w : Word) : Frame (only [.index]) s { s with index := w } := by
  intro p hp; cases p <;> first | rfl | exact absurd (by simp [only]) hp

theorem frame_dt (s : State) (b : Byte) : Frame (only [.dt]) s { s with dt := b } := by
  intro p hp; cases p <;> first | rfl | exact absurd (by simp [only]) hp

theorem frame_st (s : State) (b : Byte) : Frame (only [.st]) s { s with st := b } := by
  intro p hp; cases p <;> first | rfl | exact absurd (by simp [only]) hp

theorem frame_run (s : State) (r : RunState) : Frame (only [.run]) s { s with run := r } := by
  intro p hp; cases p <;> first | rfl | exact absurd (by simp [only]) hp

theorem frame_schedule (s : State) (l : List Move) : Frame (only [.schedule]) s { s with schedule := l } := by
  intro p hp; cases p <;> first | rfl | exact absurd (by simp [only]) hp

theorem frame_draws (s : State) (n : Nat) : Frame (only [.draws]) s { s with draws := n } := by
  intro p hp; cases p <;> first | rfl | exact absurd (by simp [only]) hp

theorem frame_fb (s : State) (f : Framebuffer) : Frame (onlyAndCells []) s { s with fb := f } := by
  intro p hp; cases p <;> first | rfl | exact absurd (by simp [onlyAndCells]) hp

theorem frame_raise (s : State) (k : FaultKind) (op : Word) : Frame (only [.run, .fault]) s (s.raise k op) := by
  intro p hp; cases p <;> first | rfl | exact absurd (by simp [only]) hp

theorem frame_tick (s : State) : Frame (only [.dt, .st]) s s.tick := by
  intro p hp; cases p <;> first | rfl | exact absurd (by simp [only]) hp

theorem frame_advance (s : State) : Frame (only [.pc]) s s.advance := frame_pc s _

theorem frame_skipIf (s : State) (c : Bool) : Frame (only [.pc]) s (s.skipIf c) := by
  cases c
  · exact Frame.refl _ s
  · exact frame_advance s

theorem frame_emitIf (s : State) (c : Bool) : Frame (only [.trace]) s (s.emitIf c) := by
  cases c
  · exact Frame.refl _ s
  · intro p hp; cases p <;> first | rfl | exact absurd (by simp [only]) hp

theorem frame_setReg (s : State) (x : Nibble) (b : Byte) : Frame (only [.reg x]) s (s.setReg x b) := by
  intro p hp
  cases p with
  | reg y =>
    have : x ≠ y := fun e => hp (by simp [only, e])
    simp [Piece.same, this]
  | _ => rfl

theorem frame_setFlag (s : State) (c : Bool) : Frame (only [.reg 15#4]) s (s.setFlag c) := frame_setReg s _ _

theorem frame_setResultFlag (s : State) (x : Nibble) (r : Byte) (c : Bool) :
    Frame (only [.reg x, .reg 15#4]) s (s.setResultFlag x r c) :=
  ((frame_setReg s x r).trans (frame_setFlag _ c)).mono fun p h => by
    rcases h with h | h <;> simp_all [only]

theorem frame_setSlot (s : State) (k : Nibble) (w : Word) : Frame (only [.slot k]) s (s.setSlot k w) := by
  intro p hp
  cases p with
  | slot j =>
    have : k ≠ j := fun e => hp (by simp [only, e])
    simp [Piece.same, this]
  | _ => rfl

theorem frame_setKey (s : State) (k : Nibble) (d : Bool) : Frame (only [.key k]) s (s.setKey k d) := by
  intro p hp
  cases p with
  | key j =>
    have : k ≠ j := fun e => hp (by simp [only, e])
    simp [Piece.same, this]
  | _ => rfl

/-- A byte store touches the byte at the address it computes, and nothing else (R51, R59). -/
theorem frame_storeByte (s : State) (base : Word) (k : Nat) (b : Byte) :
    Frame (only [.byte (memAddr base k)]) s (s.storeByte base k b) := by
  intro p hp
  cases p with
  | byte a =>
    have : a ≠ memAddr base k := fun e => hp (by simp [only, e])
    simp [Piece.same, this]
  | font => simp [Piece.same]
  | _ => rfl

theorem only_bytePieces_mono {base : Word} {m n : Nat} (h : m ≤ n) (p : Piece)
    (hp : only (bytePieces base m) p) : only (bytePieces base n) p := by
  obtain ⟨k, hk, rfl⟩ := List.mem_map.mp hp
  exact List.mem_map.mpr ⟨k, List.mem_range.mpr (Nat.lt_of_lt_of_le (List.mem_range.mp hk) h), rfl⟩

theorem only_bytePieces {base : Word} {k n : Nat} (h : k < n) (p : Piece)
    (hp : only [.byte (memAddr base k)] p) : only (bytePieces base n) p := by
  rw [List.mem_singleton.mp hp]
  exact List.mem_map.mpr ⟨k, List.mem_range.mpr h, rfl⟩

/-- A block store touches the bytes I .. I + n - 1, and nothing else (R144, R146). -/
theorem frame_storeRange (s : State) (n : Nat) : Frame (only (bytePieces s.index n)) s (s.storeRange n) := by
  induction n with
  | zero => exact Frame.refl _ s
  | succ n ih =>
    refine (ih.mono (only_bytePieces_mono (Nat.le_succ n))).trans_same ?_
    exact (frame_storeByte _ _ _ _).mono (only_bytePieces (Nat.lt_succ_self n))

/-- A block load touches V[0] .. V[n-1], and nothing else (R145, R146). -/
theorem frame_loadRange (s : State) (n : Nat) : Frame (only (regPieces n)) s (s.loadRange n) := by
  induction n with
  | zero => exact Frame.refl _ s
  | succ n ih =>
    refine (ih.mono fun p hp => ?_).trans_same ((frame_setReg _ _ _).mono fun p hp => ?_)
    · obtain ⟨k, hk, rfl⟩ := List.mem_map.mp hp
      exact List.mem_map.mpr ⟨k, List.mem_range.mpr (Nat.lt_succ_of_lt (List.mem_range.mp hk)), rfl⟩
    · rw [List.mem_singleton.mp hp]
      exact List.mem_map.mpr ⟨n, List.mem_range.mpr (Nat.lt_succ_self n), rfl⟩

end Sys2Proof.Machine
end

