-- ==== Sys2Proof/Laws/PerInstr.lean ====
section
/-! SUPPORT. Statements about every instruction as syntax, one lemma per constructor. EncodesToItsRow: the word of the
instruction selects the row the opcode map gives it (spec/30_encoding.md R75). -/

namespace Sys2Proof.Laws.EncodesToItsRow

/-- The row of the opcode map an instruction has, numbered from 0 in the order of R75. -/
def rowOf : Instr → Nat
  | .cls => 0
  | .ret => 1
  | .jp _ => 2
  | .call _ => 3
  | .seImm _ _ => 4
  | .sneImm _ _ => 5
  | .seReg _ _ => 6
  | .sneReg _ _ => 7
  | .ldImm _ _ => 8
  | .addImm _ _ => 9
  | .ldReg _ _ => 10
  | .orReg _ _ => 11
  | .andReg _ _ => 12
  | .xorReg _ _ => 13
  | .addReg _ _ => 14
  | .subReg _ _ => 15
  | .shr _ _ => 16
  | .subnReg _ _ => 17
  | .shl _ _ => 18
  | .ldI _ => 19
  | .jpV0 _ => 20
  | .rnd _ _ => 21
  | .drw _ _ _ => 22
  | .skp _ => 23
  | .sknp _ => 24
  | .ldVxDt _ => 25
  | .ldDtVx _ => 26
  | .ldStVx _ => 27
  | .ldVxK _ => 28
  | .addI _ => 29
  | .ldF _ => 30
  | .ldB _ => 31
  | .storeRegs _ => 32
  | .loadRegs _ => 33

/-- The instruction's word selects its row of the opcode map (R75). -/
def Statement (i : Instr) : Prop :=
  (opcodeTable[rowOf i]?.map fun r => r.selects (encode i)) = some true

/-- A row with mask F000 is selected by its top nibble. -/
theorem ofTop {i : Instr} {p : Word} (hr : opcodeTable[rowOf i]? = some ⟨0xF000#16, p⟩)
    (h : fmtRegImm (opTop (encode i)) 0#4 0#8 = p) : Statement i := by
  simp [Statement, hr, OpcodeRow.selects, and_F000, h]

/-- A row with mask F00F is selected by its top nibble and sub-code. -/
theorem ofTopSub {i : Instr} {p : Word} (hr : opcodeTable[rowOf i]? = some ⟨0xF00F#16, p⟩)
    (h : fmtRegReg (opTop (encode i)) 0#4 0#4 (opN (encode i)) = p) : Statement i := by
  simp [Statement, hr, OpcodeRow.selects, and_F00F, h]

/-- A row with mask F0FF is selected by its top nibble and low byte. -/
theorem ofTopLow {i : Instr} {p : Word} (hr : opcodeTable[rowOf i]? = some ⟨0xF0FF#16, p⟩)
    (h : fmtRegImm (opTop (encode i)) 0#4 (opNN (encode i)) = p) : Statement i := by
  simp [Statement, hr, OpcodeRow.selects, and_F0FF, h]

theorem cls : Statement .cls := by unfold Statement; decide

theorem ret : Statement .ret := by unfold Statement; decide

theorem jp (nnn : Addr) : Statement (.jp nnn) :=
  ofTop rfl (by simp [encode]; rfl)

theorem call (nnn : Addr) : Statement (.call nnn) :=
  ofTop rfl (by simp [encode]; rfl)

theorem seImm (x : Nibble) (nn : Byte) : Statement (.seImm x nn) :=
  ofTop rfl (by simp [encode]; rfl)

theorem sneImm (x : Nibble) (nn : Byte) : Statement (.sneImm x nn) :=
  ofTop rfl (by simp [encode]; rfl)

theorem seReg (x : Nibble) (y : Nibble) : Statement (.seReg x y) :=
  ofTopSub rfl (by simp [encode]; rfl)

theorem sneReg (x : Nibble) (y : Nibble) : Statement (.sneReg x y) :=
  ofTopSub rfl (by simp [encode]; rfl)

theorem ldImm (x : Nibble) (nn : Byte) : Statement (.ldImm x nn) :=
  ofTop rfl (by simp [encode]; rfl)

theorem addImm (x : Nibble) (nn : Byte) : Statement (.addImm x nn) :=
  ofTop rfl (by simp [encode]; rfl)

theorem ldReg (x : Nibble) (y : Nibble) : Statement (.ldReg x y) :=
  ofTopSub rfl (by simp [encode]; rfl)

theorem orReg (x : Nibble) (y : Nibble) : Statement (.orReg x y) :=
  ofTopSub rfl (by simp [encode]; rfl)

theorem andReg (x : Nibble) (y : Nibble) : Statement (.andReg x y) :=
  ofTopSub rfl (by simp [encode]; rfl)

theorem xorReg (x : Nibble) (y : Nibble) : Statement (.xorReg x y) :=
  ofTopSub rfl (by simp [encode]; rfl)

theorem addReg (x : Nibble) (y : Nibble) : Statement (.addReg x y) :=
  ofTopSub rfl (by simp [encode]; rfl)

theorem subReg (x : Nibble) (y : Nibble) : Statement (.subReg x y) :=
  ofTopSub rfl (by simp [encode]; rfl)

theorem shr (x : Nibble) (y : Nibble) : Statement (.shr x y) :=
  ofTopSub rfl (by simp [encode]; rfl)

theorem subnReg (x : Nibble) (y : Nibble) : Statement (.subnReg x y) :=
  ofTopSub rfl (by simp [encode]; rfl)

theorem shl (x : Nibble) (y : Nibble) : Statement (.shl x y) :=
  ofTopSub rfl (by simp [encode]; rfl)

theorem ldI (nnn : Addr) : Statement (.ldI nnn) :=
  ofTop rfl (by simp [encode]; rfl)

theorem jpV0 (nnn : Addr) : Statement (.jpV0 nnn) :=
  ofTop rfl (by simp [encode]; rfl)

theorem rnd (x : Nibble) (nn : Byte) : Statement (.rnd x nn) :=
  ofTop rfl (by simp [encode]; rfl)

theorem drw (x : Nibble) (y : Nibble) (n : Nibble) : Statement (.drw x y n) :=
  ofTop rfl (by simp [encode]; rfl)

theorem skp (x : Nibble) : Statement (.skp x) :=
  ofTopLow rfl (by simp [encode]; rfl)

theorem sknp (x : Nibble) : Statement (.sknp x) :=
  ofTopLow rfl (by simp [encode]; rfl)

theorem ldVxDt (x : Nibble) : Statement (.ldVxDt x) :=
  ofTopLow rfl (by simp [encode]; rfl)

theorem ldDtVx (x : Nibble) : Statement (.ldDtVx x) :=
  ofTopLow rfl (by simp [encode]; rfl)

theorem ldStVx (x : Nibble) : Statement (.ldStVx x) :=
  ofTopLow rfl (by simp [encode]; rfl)

theorem ldVxK (x : Nibble) : Statement (.ldVxK x) :=
  ofTopLow rfl (by simp [encode]; rfl)

theorem addI (x : Nibble) : Statement (.addI x) :=
  ofTopLow rfl (by simp [encode]; rfl)

theorem ldF (x : Nibble) : Statement (.ldF x) :=
  ofTopLow rfl (by simp [encode]; rfl)

theorem ldB (x : Nibble) : Statement (.ldB x) :=
  ofTopLow rfl (by simp [encode]; rfl)

theorem storeRegs (x : Nibble) : Statement (.storeRegs x) :=
  ofTopLow rfl (by simp [encode]; rfl)

theorem loadRegs (x : Nibble) : Statement (.loadRegs x) :=
  ofTopLow rfl (by simp [encode]; rfl)

end Sys2Proof.Laws.EncodesToItsRow
end

