-- ==== Sys2Proof/Tests/Slice0.lean ====
section
/-! SUPPORT. The model's own tests. Expected results are those of spec/95_test_vectors.md (V-..., P...) and of the opcode
map, spec/30_encoding.md R75; each theorem names its vectors. Then one witness per statement that has hypotheses: a concrete
state that meets them all, and one for each clause at the edge of its range. -/

namespace Sys2Proof.Tests
open Sys2Proof.Machine

/-! ### Small states and what is looked at -/

/-- The state after a step, looked at through f. -/
def look {α : Type} (f : State → α) (o : Host.Outcome State Fault Refusal) : Option α :=
  match o with
  | .next t => some (f t)
  | .fault _ => none
  | .refused _ => none

/-- Registers given values, one after the other. -/
def regs (l : List (Nibble × Byte)) (s : State) : State := l.foldl (fun s p => s.setReg p.1 p.2) s

/-- Bytes of memory given values. -/
def bytes (l : List (Nat × Byte)) (s : State) : State :=
  { s with mem := l.foldl (fun m p => m.write p.1 p.2) s.mem }

/-- Framebuffer cells lit, from a blank screen. -/
def lit (l : List (Fin 64 × Fin 32)) : Framebuffer := l.foldl (fun f p => f.flip p.1 p.2) Framebuffer.blank

/-- One step from s with a word at PC. -/
def run (w : Word) (s : State) : Host.Outcome State Fault Refusal := step (s.placeWord w)

/-- The next move, put in front of the schedule. -/
def due (m : Move) (s : State) : State := { s with schedule := [m] }

/-- PC, SP and the fault record. -/
def control (t : State) : Word × Nibble × Option FaultRecord := (t.pc, t.sp, t.fault)

/-- One register, VF and PC. -/
def result (x : Nibble) (t : State) : Byte × Byte × Word := (t.reg x, t.reg 15#4, t.pc)

/-! ### Decoding: one hand-written word of R75 for every constructor, and the encoder gives it back -/

/-- The word decodes to the instruction, and is its encoding. -/
abbrev reads (w : Word) (i : Instr) : Prop := decodeWord w = .instr i ∧ encode i = w

theorem test_decode_fixed_and_address : reads 0x00E0#16 .cls ∧ reads 0x00EE#16 .ret ∧
    reads 0x1ABC#16 (.jp 0xABC#12) ∧ reads 0x220A#16 (.call 0x20A#12) ∧
    reads 0xA300#16 (.ldI 0x300#12) ∧ reads 0xBFFF#16 (.jpV0 0xFFF#12) := by decide

theorem test_decode_immediate : reads 0x3F01#16 (.seImm 15#4 0x01#8) ∧ reads 0x4211#16 (.sneImm 2#4 0x11#8) ∧
    reads 0x6A2C#16 (.ldImm 10#4 0x2C#8) ∧ reads 0x7F02#16 (.addImm 15#4 0x02#8) ∧
    reads 0xC30F#16 (.rnd 3#4 0x0F#8) := by decide

theorem test_decode_register_skip : reads 0x5340#16 (.seReg 3#4 4#4) ∧ reads 0x9340#16 (.sneReg 3#4 4#4) := by decide

theorem test_decode_alu : reads 0x8F10#16 (.ldReg 15#4 1#4) ∧ reads 0x8121#16 (.orReg 1#4 2#4) ∧
    reads 0x8122#16 (.andReg 1#4 2#4) ∧ reads 0x8123#16 (.xorReg 1#4 2#4) ∧ reads 0x81F4#16 (.addReg 1#4 15#4) ∧
    reads 0x81F5#16 (.subReg 1#4 15#4) ∧ reads 0x8346#16 (.shr 3#4 4#4) ∧ reads 0x8017#16 (.subnReg 0#4 1#4) ∧
    reads 0x8FFE#16 (.shl 15#4 15#4) := by decide

theorem test_decode_draw_and_keys : reads 0xD12A#16 (.drw 1#4 2#4 10#4) ∧ reads 0xE59E#16 (.skp 5#4) ∧
    reads 0xE5A1#16 (.sknp 5#4) := by decide

theorem test_decode_misc : reads 0xF407#16 (.ldVxDt 4#4) ∧ reads 0xF30A#16 (.ldVxK 3#4) ∧
    reads 0xF415#16 (.ldDtVx 4#4) ∧ reads 0xF418#16 (.ldStVx 4#4) ∧ reads 0xF21E#16 (.addI 2#4) ∧
    reads 0xF029#16 (.ldF 0#4) ∧ reads 0xF233#16 (.ldB 2#4) ∧ reads 0xF355#16 (.storeRegs 3#4) ∧
    reads 0xFF65#16 (.loadRegs 15#4) := by decide

/-- Section 1 of the vectors: field extraction, and the two bytes in memory. -/
theorem test_fields_of_D12A : opTop 0xD12A#16 = 0xD#4 ∧ opX 0xD12A#16 = 1#4 ∧ opY 0xD12A#16 = 2#4 ∧
    opN 0xD12A#16 = 10#4 ∧ opNN 0xD12A#16 = 0x2A#8 ∧ opNNN 0xD12A#16 = 0x12A#12 ∧
    wordByte0 0xD12A#16 = 0xD1#8 ∧ wordByte1 0xD12A#16 = 0x2A#8 ∧
    decode [0xD1#8, 0x2A#8, 0x00#8] = .instr (.drw 1#4 2#4 10#4) ∧ decode [0xD1#8] = .truncated := by decide

/-! ### Ill-formed input: WellFormed refuses one of each kind, and the decoder rejects it by name -/

/-- The word is in no row of the map, and the decoder says in which illegal set it is. -/
abbrev illFormed (w : Word) (g : IllegalSet) : Prop :=
  wordWellFormed w = false ∧ decodeWord w = .illegal g ∧ illegalWord g w.toNat = true ∧
    decodeTableWord 16 w.toNat = none

/-- V-E1 to V-E7. -/
theorem test_ill_formed_zero_group : illFormed 0x0000#16 .zeroGroup ∧
    illFormed 0x00E1#16 .zeroGroup ∧
    illFormed 0x00EF#16 .zeroGroup ∧
    illFormed 0x00FF#16 .zeroGroup ∧
    illFormed 0x00FE#16 .zeroGroup ∧
    illFormed 0x00C1#16 .zeroGroup ∧
    illFormed 0x0123#16 .zeroGroup := by decide

/-- V-E8, V-E9. -/
theorem test_ill_formed_register_skips : illFormed 0x5011#16 .seRegGroup ∧ illFormed 0x9001#16 .sneRegGroup := by decide

/-- V-E10, V-E11. -/
theorem test_ill_formed_alu : illFormed 0x8008#16 .aluGroup ∧ illFormed 0x800F#16 .aluGroup := by decide

/-- V-E12, V-E13. -/
theorem test_ill_formed_keys : illFormed 0xE000#16 .keyGroup ∧ illFormed 0xE09F#16 .keyGroup := by decide

/-- V-E14 to V-E20. -/
theorem test_ill_formed_misc : illFormed 0xF000#16 .miscGroup ∧
    illFormed 0xF002#16 .miscGroup ∧
    illFormed 0xF01F#16 .miscGroup ∧
    illFormed 0xF030#16 .miscGroup ∧
    illFormed 0xF075#16 .miscGroup ∧
    illFormed 0xF085#16 .miscGroup ∧
    illFormed 0xFFFF#16 .miscGroup := by decide

/-- V-R1, V-R2: 3584 bytes are accepted, 3585 are not. -/
theorem test_ill_formed_rom : romWellFormed (List.replicate 3584 0#8) = true ∧
    romWellFormed (List.replicate 3585 0#8) = false := by
  rw [romWellFormed, romWellFormed, List.length_replicate, List.length_replicate]
  decide

/-- V-E1: the whole effect of DecodeFailure. -/
theorem test_illegal_word_halts : look (fun t => (t.run, t.fault, t.pc)) (run 0x0000#16 State.reset) =
    some (.halted (.fault .decodeFailure), some ⟨.decodeFailure, 0x200#16, 0x0000#16⟩, 0x202#16) := by decide

/-- The codes of R200. -/
theorem test_stop_codes : [StopCause.fault .decodeFailure, .fault .stackOverflow, .fault .stackUnderflow,
    .fault .operandRange, .cancelled].map StopCause.code = [1, 2, 3, 4, 6] ∧
    Refusal.loadFailure.code = some 5 := by decide

/-- Two causes with one code are one cause: the premise met. -/
theorem witness_CauseCodesAreDistinct : (StopCause.fault .operandRange).code = (StopCause.fault .operandRange).code := rfl

/-! ### Control transfer -/

/-- V-C6. -/
theorem test_ret_underflow : look control (run 0x00EE#16 State.reset) =
    some (0x202#16, 0#4, some ⟨.stackUnderflow, 0x200#16, 0x00EE#16⟩) := by decide

/-- V-C7, V-C8. -/
theorem test_ret_pops : look (fun t => (t.pc, t.sp, t.slot 15#4))
      (run 0x00EE#16 ({ State.reset with pc := 0x400#16, sp := 15#4 }.setSlot 15#4 0x0ABC#16)) =
      some (0x0ABC#16, 14#4, 0x0ABC#16) ∧
    look control (run 0x00EE#16 ({ State.reset with pc := 0x400#16, sp := 1#4 }.setSlot 1#4 0x10FF#16)) =
      some (0x10FF#16, 0#4, none) := by decide

/-- V-C1, V-C2. -/
theorem test_jp : look (·.pc) (run 0x1ABC#16 State.reset) = some 0x0ABC#16 ∧
    look (·.pc) (run 0x1201#16 State.reset) = some 0x0201#16 := by decide

/-- V-C3, V-C4. -/
theorem test_call_pushes : look (fun t => (t.pc, t.sp, t.slot 1#4, t.slot 0#4)) (run 0x220A#16 State.reset) =
      some (0x20A#16, 1#4, 0x202#16, 0#16) ∧
    look (fun t => (t.pc, t.sp, t.slot 15#4)) (run 0x2300#16 { State.reset with pc := 0x250#16, sp := 14#4 }) =
      some (0x300#16, 15#4, 0x252#16) := by decide

/-- V-C5. -/
theorem test_call_overflow : look control (run 0x2300#16 { State.reset with pc := 0x250#16, sp := 15#4 }) =
    some (0x252#16, 15#4, some ⟨.stackOverflow, 0x250#16, 0x2300#16⟩) := by decide

/-- V-C9, V-C10, V-C20. -/
theorem test_se_immediate : look (·.pc) (run 0x3100#16 State.reset) = some 0x204#16 ∧
    look (·.pc) (run 0x3100#16 (regs [(1#4, 1#8)] State.reset)) = some 0x202#16 ∧
    look (·.pc) (run 0x3000#16 { State.reset with pc := 0xFFFE#16 }) = some 0x0002#16 := by decide

/-- V-C11, V-C12. -/
theorem test_sne_immediate : look (·.pc) (run 0x4211#16 (regs [(2#4, 0x10#8)] State.reset)) = some 0x204#16 ∧
    look (·.pc) (run 0x4210#16 (regs [(2#4, 0x10#8)] State.reset)) = some 0x202#16 := by decide

/-- V-C13, V-C16. -/
theorem test_se_register : look (·.pc) (run 0x5330#16 (regs [(3#4, 9#8)] State.reset)) = some 0x204#16 ∧
    look (·.pc) (run 0x5340#16 (regs [(3#4, 7#8), (4#4, 8#8)] State.reset)) = some 0x202#16 := by decide

/-- V-C14, V-C17. -/
theorem test_sne_register : look (·.pc) (run 0x9330#16 (regs [(3#4, 9#8)] State.reset)) = some 0x202#16 ∧
    look (·.pc) (run 0x9340#16 (regs [(3#4, 7#8), (4#4, 8#8)] State.reset)) = some 0x204#16 := by decide

/-- V-C18, V-C19. -/
theorem test_jp_v0 : look (·.pc) (run 0xB300#16 (regs [(0#4, 4#8), (3#4, 0x55#8)] State.reset)) = some 0x304#16 ∧
    look (·.pc) (run 0xBFFF#16 (regs [(0#4, 0xFF#8)] State.reset)) = some 0x10FE#16 := by decide

/-- V-C21: the second byte of the word is fetched from address 0. -/
theorem test_fetch_wraps : look (result 0#4) (step (bytes [(0xFFF, 0x60#8)] { State.reset with pc := 0xFFF#16 })) =
    some (0xF0#8, 0#8, 0x1001#16) := by decide

/-! ### Load and ALU -/

/-- V-A1, through the host's placement. -/
theorem test_ld_immediate : look (result 10#4) (step (State.reset.withFetchWord 16 0x6A2C)) =
    some (0x2C#8, 0#8, 0x202#16) := by decide

/-- V-A3, V-A4. -/
theorem test_add_immediate : look (result 0#4) (run 0x7001#16 (regs [(0#4, 0xFF#8)] State.reset)) =
      some (0#8, 0#8, 0x202#16) ∧
    look (result 15#4) (run 0x7F02#16 (regs [(15#4, 0xFF#8)] State.reset)) = some (1#8, 1#8, 0x202#16) := by decide

/-- V-A5. -/
theorem test_ld_register : look (result 1#4) (run 0x8F10#16 (regs [(1#4, 0x77#8)] State.reset)) =
    some (0x77#8, 0x77#8, 0x202#16) := by decide

/-- V-A6. -/
theorem test_or : look (result 1#4) (run 0x8121#16 (regs [(1#4, 0x0F#8), (2#4, 0xF0#8), (15#4, 1#8)] State.reset)) =
    some (0xFF#8, 1#8, 0x202#16) := by decide

/-- V-A7. -/
theorem test_and : look (result 1#4) (run 0x8122#16 (regs [(1#4, 0x3C#8), (2#4, 0x0F#8), (15#4, 1#8)] State.reset)) =
    some (0x0C#8, 1#8, 0x202#16) := by decide

/-- V-A8. -/
theorem test_xor : look (result 1#4) (run 0x8113#16 (regs [(1#4, 0x5A#8), (15#4, 1#8)] State.reset)) =
    some (0#8, 1#8, 0x202#16) := by decide

/-- V-A9, V-A11, V-A12, V-A13. -/
theorem test_add : look (result 0#4) (run 0x8014#16 (regs [(0#4, 0xFF#8), (1#4, 0xFF#8)] State.reset)) =
      some (0xFE#8, 1#8, 0x202#16) ∧
    look (result 1#4) (run 0x8F14#16 (regs [(15#4, 5#8), (1#4, 3#8)] State.reset)) = some (3#8, 0#8, 0x202#16) ∧
    look (result 1#4) (run 0x8F14#16 (regs [(15#4, 0xFF#8), (1#4, 1#8)] State.reset)) = some (1#8, 1#8, 0x202#16) ∧
    look (result 1#4) (run 0x81F4#16 (regs [(1#4, 0x10#8), (15#4, 1#8)] State.reset)) =
      some (0x11#8, 0#8, 0x202#16) := by decide

/-- V-A14, V-A15, V-A18, V-A19. -/
theorem test_sub : look (result 0#4) (run 0x8015#16 (regs [(0#4, 7#8), (1#4, 7#8)] State.reset)) =
      some (0#8, 1#8, 0x202#16) ∧
    look (result 0#4) (run 0x8015#16 (regs [(1#4, 1#8)] State.reset)) = some (0xFF#8, 0#8, 0x202#16) ∧
    look (result 1#4) (run 0x8F15#16 (regs [(15#4, 3#8), (1#4, 5#8)] State.reset)) = some (5#8, 0#8, 0x202#16) ∧
    look (result 1#4) (run 0x81F5#16 (regs [(1#4, 5#8), (15#4, 1#8)] State.reset)) =
      some (4#8, 1#8, 0x202#16) := by decide

/-- V-A20, V-A21, V-A22. -/
theorem test_subn : look (result 0#4) (run 0x8017#16 (regs [(0#4, 3#8), (1#4, 5#8)] State.reset)) =
      some (2#8, 1#8, 0x202#16) ∧
    look (result 0#4) (run 0x8017#16 (regs [(0#4, 5#8), (1#4, 3#8)] State.reset)) = some (0xFE#8, 0#8, 0x202#16) ∧
    look (result 0#4) (run 0x8017#16 (regs [(0#4, 9#8), (1#4, 9#8)] State.reset)) =
      some (0#8, 1#8, 0x202#16) := by decide

/-- V-A26, V-A27, V-A29. -/
theorem test_shr : look (result 3#4) (run 0x8306#16 (regs [(3#4, 0xFF#8)] State.reset)) =
      some (0x7F#8, 1#8, 0x202#16) ∧
    look (fun t => (t.reg 3#4, t.reg 4#4)) (run 0x8346#16 (regs [(3#4, 1#8), (4#4, 0xAA#8)] State.reset)) =
      some (0#8, 0xAA#8) ∧
    look (·.reg 15#4) (run 0x8F06#16 (regs [(15#4, 2#8)] State.reset)) = some 0#8 := by decide

/-- V-A30, V-A31, V-A33. -/
theorem test_shl : look (result 3#4) (run 0x830E#16 (regs [(3#4, 0x81#8)] State.reset)) =
      some (2#8, 1#8, 0x202#16) ∧
    look (result 3#4) (run 0x830E#16 (regs [(3#4, 0x40#8), (15#4, 1#8)] State.reset)) =
      some (0x80#8, 0#8, 0x202#16) ∧
    look (·.reg 15#4) (run 0x8FFE#16 (regs [(15#4, 0x80#8)] State.reset)) = some 1#8 := by decide

/-! ### Index register and memory -/

/-- V-M1. -/
theorem test_ld_index : look (·.index) (run 0xA300#16 { State.reset with index := 0xFFFF#16 }) = some 0x300#16 := by decide

/-- V-M2, V-M3. -/
theorem test_add_index : look (fun t => (t.index, t.reg 15#4))
      (run 0xF21E#16 (regs [(2#4, 5#8)] { State.reset with index := 0x0FFE#16 })) = some (0x1003#16, 0#8) ∧
    look (fun t => (t.index, t.reg 15#4))
      (run 0xF21E#16 (regs [(2#4, 1#8)] { State.reset with index := 0xFFFF#16 })) = some (0#16, 0#8) := by decide

/-- V-M5, V-M6. -/
theorem test_ld_font : look (·.index) (run 0xF029#16 (regs [(0#4, 15#8)] State.reset)) = some 0x4B#16 ∧
    look (fun t => (t.index, t.fault)) (run 0xF029#16 (regs [(0#4, 16#8)] { State.reset with index := 0x123#16 })) =
      some (0x123#16, some ⟨.operandRange, 0x200#16, 0xF029#16⟩) := by decide

/-- V-M8, V-M7: the digits, and zeros over bytes that were set. -/
theorem test_ld_decimal : look (fun t => [0x300, 0x301, 0x302].map t.mem.read)
      (run 0xF233#16 (regs [(2#4, 255#8)] { State.reset with index := 0x300#16 })) = some [2#8, 5#8, 5#8] ∧
    look (fun t => ([0x300, 0x301, 0x302].map t.mem.read, t.mem.cells))
      (run 0xF233#16 (bytes [(0x300, 9#8), (0x301, 9#8), (0x302, 9#8)] { State.reset with index := 0x300#16 })) =
      some ([0#8, 0#8, 0#8], [(0x200, 0xF2#8), (0x201, 0x33#8)]) := by decide

/-- V-M11, V-M16: the address wraps, I does not. -/
theorem test_ld_decimal_wraps : look (fun t => ([0xFFF, 0, 1].map t.mem.read, t.index))
      (run 0xF233#16 (regs [(2#4, 199#8)] { State.reset with index := 0x0FFF#16 })) =
      some ([1#8, 9#8, 9#8], 0x0FFF#16) ∧
    look (fun t => ([3, 4, 5].map t.mem.read, t.index))
      (run 0xF233#16 (regs [(2#4, 42#8)] { State.reset with index := 0x1003#16 })) =
      some ([0#8, 4#8, 2#8], 0x1003#16) := by decide

/-- V-M13. -/
theorem test_block_store : look (fun t => ([0xFFE, 0xFFF, 0, 1, 2].map t.mem.read, t.index))
      (run 0xF355#16 (regs [(0#4, 0xA0#8), (1#4, 0xA1#8), (2#4, 0xA2#8), (3#4, 0xA3#8)]
        { State.reset with index := 0x0FFE#16 })) =
    some ([0xA0#8, 0xA1#8, 0xA2#8, 0xA3#8, 0x90#8], 0x0FFE#16) := by decide

/-- V-M14, V-M15. -/
theorem test_block_load : look (fun t => (t.reg 0#4, t.reg 1#4))
      (run 0xF065#16 (regs [(0#4, 1#8), (1#4, 2#8)] (bytes [(0x300, 0xAB#8), (0x301, 0xCD#8)]
        { State.reset with index := 0x300#16 }))) = some (0xAB#8, 2#8) ∧
    look (fun t => t.v.toList) (run 0xFF65#16 State.reset) =
      some [0xF0#8, 0x90#8, 0x90#8, 0x90#8, 0xF0#8, 0x20#8, 0x60#8, 0x20#8, 0x20#8, 0x70#8, 0xF0#8, 0x10#8, 0xF0#8,
        0x80#8, 0xF0#8, 0xF0#8] := by decide

/-! ### Display -/

/-- V-D1, V-D2. -/
theorem test_cls : look (fun t => (t.fb, t.trace, t.reg 15#4)) (run 0x00E0#16 (regs [(15#4, 1#8)] State.reset)) =
      some (lit [], [], 1#8) ∧
    look (fun t => (t.fb, t.trace)) (run 0x00E0#16 { State.reset with fb := lit [(3, 4), (63, 31)] }) =
      some (lit [], [.displayChanged]) := by decide +kernel

/-- What a DRW leaves: the screen, VF and the events. -/
def drawn (t : State) : Framebuffer × Byte × List OutputEvent := (t.fb, t.reg 15#4, t.trace)

/-- V-D3, V-D5, V-D8, V-D9. -/
theorem test_drw_cases :
    look drawn (run 0xD120#16 (regs [(15#4, 1#8)] (bytes [(0x300, 0xFF#8)] { State.reset with index := 0x300#16 }))) =
      some (lit [], 0#8, []) ∧
    look drawn (run 0xD121#16 (regs [(1#4, 200#8), (2#4, 100#8)] (bytes [(0x300, 0x80#8)]
      { State.reset with index := 0x300#16 }))) = some (lit [(8, 4)], 0#8, [.displayChanged]) ∧
    look drawn (run 0xD121#16 (bytes [(0x300, 0xC0#8)] { State.reset with index := 0x300#16, fb := lit [(0, 0)] })) =
      some (lit [(1, 0)], 1#8, [.displayChanged]) ∧
    look drawn (run 0xDF11#16 (regs [(15#4, 3#8), (1#4, 2#8)] (bytes [(0x300, 0x80#8)]
      { State.reset with index := 0x300#16 }))) = some (lit [(3, 2)], 0#8, [.displayChanged]) := by decide +kernel

/-- V-D10, V-D12, P3's first draw: the glyph, the sprite's second row at address 0, the wrap on both axes. -/
theorem test_drw_shapes :
    look drawn (run 0xD015#16 { State.reset with index := 5#16 }) =
      some (lit [(2, 0), (1, 1), (2, 1), (2, 2), (2, 3), (1, 4), (2, 4), (3, 4)], 0#8, [.displayChanged]) ∧
    look drawn (run 0xD122#16 (bytes [(0xFFF, 0x80#8)] { State.reset with index := 0xFFF#16 })) =
      some (lit [(0, 0), (0, 1), (1, 1), (2, 1), (3, 1)], 0#8, [.displayChanged]) ∧
    look drawn (run 0xD122#16 (regs [(1#4, 62#8), (2#4, 31#8)] (bytes [(0x20E, 0xC3#8), (0x20F, 0x81#8)]
      { State.reset with index := 0x20E#16 }))) =
      some (lit [(62, 31), (63, 31), (4, 31), (5, 31), (62, 0), (5, 0)], 0#8, [.displayChanged]) := by decide +kernel

/-! ### Keypad, timers, random -/

/-- V-K1, V-K2, V-K5. -/
theorem test_skp : look (·.pc) (run 0xE59E#16 (regs [(5#4, 10#8)] (State.reset.setKey 10#4 true))) = some 0x204#16 ∧
    look (·.pc) (run 0xE59E#16 (regs [(5#4, 10#8)] (State.reset.setKey 11#4 true))) = some 0x202#16 ∧
    look control (run 0xE59E#16 (regs [(5#4, 0x10#8)] (State.reset.setKey 0#4 true))) =
      some (0x202#16, 0#4, some ⟨.operandRange, 0x200#16, 0xE59E#16⟩) := by decide

/-- V-K3, V-K4, V-K6. -/
theorem test_sknp : look (·.pc) (run 0xE5A1#16 (regs [(5#4, 10#8)] (State.reset.setKey 10#4 true))) = some 0x202#16 ∧
    look (·.pc) (run 0xE5A1#16 (regs [(5#4, 10#8)] State.reset)) = some 0x204#16 ∧
    look control (run 0xE5A1#16 (regs [(5#4, 0xFF#8)] State.reset)) =
      some (0x202#16, 0#4, some ⟨.operandRange, 0x200#16, 0xE5A1#16⟩) := by decide

/-- V-K7, the issue step: a key already held does not satisfy the wait. -/
theorem test_key_wait : look (fun t => (t.run, t.pc, t.reg 3#4)) (run 0xF30A#16 (State.reset.setKey 7#4 true)) =
    some (.waitKey 3#4, 0x202#16, 0#8) := by decide

/-- V-K7, the completion; V-K8 and V-K11, the dropped event. -/
theorem test_key_press : look (fun t => (t.run, t.pc, t.reg 3#4))
      (step (due (.keyPress 7#4) { State.reset with run := .waitKey 3#4, pc := 0x202#16 })) =
      some (.running, 0x202#16, 7#8) ∧
    look id (step (due (.keyPress 4#4) State.reset)) = some State.reset ∧
    look (·.run) (step (due (.keyPress 4#4) { State.reset with run := .halted (.fault .decodeFailure) })) =
      some (.halted (.fault .decodeFailure)) := by decide +kernel

/-- V-K9, and Cancel in Halted (V-K11). -/
theorem test_cancel : look (fun t => (t.run, t.reg 3#4, t.fault))
      (step (due .cancel (regs [(3#4, 0x55#8)] { State.reset with run := .waitKey 3#4 }))) =
      some (.halted .cancelled, 0x55#8, none) ∧
    look (·.run) (step (due .cancel { State.reset with run := .halted (.fault .decodeFailure) })) =
      some (.halted (.fault .decodeFailure)) := by decide

/-- V-K12, V-K13, V-K14. -/
theorem test_timer_access : look (fun t => (t.reg 4#4, t.dt)) (run 0xF407#16 { State.reset with dt := 0x3C#8 }) =
      some (0x3C#8, 0x3C#8) ∧
    look (fun t => (t.dt, t.st)) (run 0xF415#16 (regs [(4#4, 0x3C#8)] State.reset)) = some (0x3C#8, 0#8) ∧
    look (fun t => (t.dt, t.st)) (run 0xF418#16 (regs [(4#4, 2#8)] State.reset)) = some (0#8, 2#8) := by decide

/-- V-K15, and the first tick of V-K10, in a key wait. -/
theorem test_tick : look (fun t => (t.dt, t.st)) (step (due .tick { State.reset with st := 5#8 })) = some (0#8, 4#8) ∧
    look (fun t => (t.dt, t.st, t.run))
      (step (due .tick { State.reset with dt := 2#8, st := 1#8, run := .waitKey 3#4 })) =
      some (1#8, 0#8, .waitKey 3#4) := by decide

/-- R187: the drawn byte, whatever it is, masked. -/
theorem test_rnd : look (fun t => (t.reg 3#4, t.draws)) (execRnd 3#4 0x0F#8 State.reset) =
    some (Config.randomByte 0 &&& 0x0F#8, 1) := rfl

/-- V-K18: with NN = 0 the result is 0 for every draw. -/
theorem test_rnd_zero_mask : look (·.reg 3#4) (execRnd 3#4 0#8 (regs [(3#4, 9#8)] State.reset)) = some 0#8 := by
  show some (Config.randomByte 0 &&& 0#8) = some 0#8
  rw [BitVec.and_zero]

/-! ### Reset -/

/-- V-R4: a one-byte ROM; V-R5: from a halted machine. -/
theorem test_reset : look (fun t => (t.mem.cells, t.pc, t.run, t.fault, t.reg 1#4))
      (step (due (.reset [0x12#8]) (regs [(1#4, 1#8)]
        { State.reset with run := .halted (.fault .decodeFailure), fault := some ⟨.decodeFailure, 0#16, 0#16⟩ }))) =
    some ([(0x200, 0x12#8)], 0x200#16, .running, none, 0#8) := by decide

/-- V-R3: with an empty ROM the first cycle fetches 0x0000. -/
theorem test_reset_empty_rom : look (·.fault) (step State.reset) = some (some ⟨.decodeFailure, 0x200#16, 0#16⟩) ∧
    State.reset.boot [] = State.reset := by decide +kernel

/-! ### Memory keeps its canonical form -/

/-- Writing what the address reads as unlisted removes the cell: font bytes below 80, zero above. -/
theorem test_memory_canonical : (((State.reset.mem.write 0 1#8).write 0x300 5#8).write 0 0xF0#8).cells = [(0x300, 5#8)] ∧
    ((State.reset.mem.write 0x300 5#8).write 0x300 0#8).cells = [] ∧ State.reset.mem.wf := by decide

/-! ### Witnesses: for each statement with hypotheses, concrete states that meet all of them together -/

/-- A machine in the middle of a run: two calls deep, a program word at PC, a byte stored, a cell lit, timers running. -/
def busy : State :=
  { regs [(0#4, 0x12#8), (1#4, 0xFF#8), (5#4, 15#8)] State.reset with
    sp := 2#4, stack := (resetStack.set 1 0x206#16).set 2 0x30A#16, index := 0x200#16, dt := 3#8, st := 1#8,
    keys := resetKeys.set 15 true, fb := lit [(0, 0), (63, 31)], mem := State.reset.mem.write 0x200 0x61#8 }

theorem busy_inv : busy.Inv := ⟨by decide, rfl, by decide⟩

theorem witness_EncodeOfDecode : decodeWord 0x834E#16 = .instr (.shl 3#4 4#4) := by decide

theorem witness_StepRunsTheDecodedInstruction :
    engineTurn busy ∧ decodeWord (fetchWord busy.mem busy.pc) = .instr (.ldImm 1#4 0#8) :=
  ⟨⟨rfl, .inl rfl⟩, by decide⟩

/-- The same with the engine's move on the schedule, a tick behind it. -/
theorem witness_StepRunsTheDecodedInstruction_scheduled :
    engineTurn { busy with schedule := [.engine, .tick] } ∧
      decodeWord (fetchWord busy.mem busy.pc) = .instr (.ldImm 1#4 0#8) :=
  ⟨⟨rfl, .inr ⟨[.tick], rfl⟩⟩, by decide⟩

theorem witness_IllegalWordRaisesDecodeFailure :
    engineTurn { busy with pc := 0x300#16 } ∧
      decodeWord (fetchWord busy.mem 0x300#16) = .illegal .zeroGroup :=
  ⟨⟨rfl, .inl rfl⟩, by decide⟩

/-- Both clauses: WaitKey(15), and each stop cause of Halted. -/
theorem witness_EngineStuckWhenNotRunning :
    ({ busy with run := .waitKey 15#4 }.schedule = [] ∧ { busy with run := .waitKey 15#4 }.run = .waitKey 15#4) ∧
    ({ busy with run := .halted .cancelled }.schedule = [] ∧
      { busy with run := .halted .cancelled }.run = .halted .cancelled) ∧
    ((∃ rest, { busy with schedule := [.engine] }.schedule = .engine :: rest)) :=
  ⟨⟨rfl, rfl⟩, ⟨rfl, rfl⟩, ⟨[], rfl⟩⟩

/-- A RET with SP = 0. -/
theorem witness_FaultsArePrecise : engineTurn (State.reset.placeWord 0x00EE#16) ∧
    ∃ t, step (State.reset.placeWord 0x00EE#16) = .next t ∧ t.run = .halted (.fault .stackUnderflow) :=
  ⟨⟨rfl, .inl rfl⟩, _, rfl, rfl⟩

/-- SP = 1 and SP = 15, the ends of the range. -/
theorem witness_ReturnPopsTheStack : { busy with sp := 1#4 }.sp ≠ 0#4 ∧ { busy with sp := 15#4 }.sp ≠ 0#4 := by decide

theorem witness_ReturnOnEmptyStackFaults : State.reset.sp = 0#4 := by decide

/-- SP = 0 and SP = 14, the ends of the range. -/
theorem witness_CallPushesTheReturnAddress : State.reset.sp ≠ 15#4 ∧ { busy with sp := 14#4 }.sp ≠ 15#4 := by decide

theorem witness_CallOnFullStackFaults : { busy with sp := 15#4 }.sp = 15#4 := by decide

/-- The subroutine has changed a register and memory and stands at its RET. -/
theorem witness_CallThenReturnComesBack : busy.sp ≠ 15#4 ∧ ∃ t, exec (.call 0x300#12) busy = .next t ∧
    ∃ b, b = { t.setReg 3#4 9#8 with pc := 0x310#16, mem := busy.mem.write 0x400 1#8 } ∧ b.sp = t.sp ∧
      b.slot b.sp = t.slot t.sp :=
  ⟨by decide, _, rfl, _, rfl, rfl, rfl⟩

/-- The largest digit. -/
theorem witness_FontAddressOfDigit : (busy.reg 5#4).toNat = 15 ∧ (busy.reg 5#4).toNat ≤ 15 := by decide

/-- The least and the greatest value out of range. -/
theorem witness_OperandRangeFaults : 15 < ((regs [(5#4, 16#8)] busy).reg 5#4).toNat ∧
    15 < ((regs [(5#4, 255#8)] busy).reg 5#4).toNat := by decide

/-- Key 15 held, key 0 not held. -/
theorem witness_KeySkips : ((busy.reg 5#4).toNat = (15#4).toNat ∧ busy.key 15#4 = true) ∧
    ((busy.reg 2#4).toNat = (0#4).toNat ∧ busy.key 0#4 = false) := by decide

/-- The wait with destination 15, and a running and a halted machine. -/
theorem witness_KeyPressCompletesTheWait :
    (due (.keyPress 15#4) { busy with run := .waitKey 15#4 }).schedule = .keyPress 15#4 :: [] ∧
    { busy with run := .waitKey 15#4 }.run = .waitKey 15#4 ∧
    (due (.keyPress 0#4) busy).schedule = .keyPress 0#4 :: [] ∧ (∀ x, (due (.keyPress 0#4) busy).run ≠ .waitKey x) ∧
    (∀ x, { busy with run := .halted .cancelled }.run ≠ .waitKey x) :=
  ⟨rfl, rfl, rfl, nofun, nofun⟩

theorem witness_TickCountsDown : (due .tick busy).schedule = .tick :: [] := rfl

/-- A tick, with both timers above 0. -/
theorem witness_TimersOnlyFallUnlessSet : (∃ t, step (due .tick busy) = .next t ∧ t.dt = 2#8 ∧ t.st = 0#8) ∧
    ∀ rom rest, (due .tick busy).schedule ≠ .reset rom :: rest :=
  ⟨⟨_, rfl, by decide, by decide⟩, nofun⟩

theorem witness_HostSetsOneKey : (due (.setKey 15#4 false) busy).schedule = .setKey 15#4 false :: [] := rfl

/-- Both clauses: waiting, and halted with a fault. -/
theorem witness_CancelHalts :
    ((due .cancel { busy with run := .waitKey 3#4 }).schedule = .cancel :: [] ∧
      ∀ c, (due .cancel { busy with run := .waitKey 3#4 }).run ≠ .halted c) ∧
    ((due .cancel { busy with run := .halted (.fault .stackOverflow) }).schedule = .cancel :: [] ∧
      (due .cancel { busy with run := .halted (.fault .stackOverflow) }).run = .halted (.fault .stackOverflow)) :=
  ⟨⟨rfl, nofun⟩, rfl, rfl⟩

/-- The longest image, whose last byte stands at 0xFFF (V-R1). -/
theorem witness_ResetLoadsTheRom :
    (due (.reset (List.replicate 3584 0xAB#8)) busy).schedule = .reset (List.replicate 3584 0xAB#8) :: [] ∧
      (List.replicate 3584 0xAB#8).length ≤ 3584 ∧ (List.replicate 3584 0xAB#8)[3583]? = some 0xAB#8 ∧
      512 + 3583 = 0xFFF := by
  refine ⟨rfl, Nat.le_of_eq List.length_replicate, ?_, rfl⟩
  rw [List.getElem?_replicate]
  rfl

/-- The image one byte too long (V-R2). -/
theorem witness_OversizedRomIsRefused :
    (due (.reset (List.replicate 3585 0xAB#8)) busy).schedule = .reset (List.replicate 3585 0xAB#8) :: [] ∧
      3584 < (List.replicate 3585 0xAB#8).length := by
  refine ⟨rfl, ?_⟩
  rw [List.length_replicate]
  decide

/-- All sixteen registers stored, then all of them lost. -/
theorem witness_BlockRoundTrip : ∃ t, exec (.storeRegs 15#4) busy = .next t ∧ ∃ b, b = { t with v := resetV } ∧
    b.mem = t.mem ∧ b.index = t.index :=
  ⟨_, rfl, _, rfl, rfl, rfl⟩

/-- Program P4: two registers stored over the word at PC. -/
theorem witness_StoreIsSeenByTheNextFetch : 1 ≤ (1#4).toNat ∧ busy.index.toNat % 4096 = busy.pc.toNat % 4096 ∧
    ∃ t, exec (.storeRegs 1#4) busy = .next t :=
  ⟨by decide, by decide, _, rfl⟩

/-- Both clauses of CLS: a lit and a blank screen. -/
theorem witness_ClearScreen : (∃ cx cy, busy.fb.cell cx cy = true) ∧ (∀ cx cy, State.reset.fb.cell cx cy = false) :=
  ⟨⟨63, 31, by decide⟩, by decide +kernel⟩

/-- The clauses of DRW: a lit cell under a set bit (0xF0 at address 0, drawn at (0, 0)); no set bit with N = 0. -/
theorem witness_DrawSprite :
    (∃ cx cy, spriteLights { busy with index := 0#16 } 2#4 3#4 1#4 cx cy ∧ busy.fb.cell cx cy = true) ∧
    ¬ (∃ cx cy, spriteLights busy 2#4 3#4 0#4 cx cy) :=
  ⟨⟨0, 0, ⟨0, 0, by decide, by decide, by decide, by decide, by decide⟩, by decide⟩,
    fun ⟨_, _, _, _, h, _⟩ => Nat.not_lt_zero _ h⟩

theorem witness_DrawTwiceRestores : ∃ t u, exec (.drw 2#4 3#4 5#4) busy = .next t ∧ t.reg 2#4 = busy.reg 2#4 ∧
    t.reg 3#4 = busy.reg 3#4 ∧ exec (.drw 2#4 3#4 5#4) t = .next u :=
  ⟨_, _, rfl, by decide +kernel, by decide +kernel, rfl⟩

/-- Both clauses: CLS on a lit screen, and a jump. -/
theorem witness_DisplayChangedIffCellsChanged : (∃ t, exec .cls busy = .next t ∧ t.fb ≠ busy.fb) ∧
    ∃ t, exec (.jp 0x300#12) busy = .next t ∧ t.fb = busy.fb :=
  ⟨⟨_, rfl, by decide +kernel⟩, _, rfl, rfl⟩

/-- Every agent's step: here the engine's, a store that leaves a canonical memory. -/
theorem witness_StepKeepsTheInvariant : (busy.placeWord 0xF533#16).Inv ∧
    ∃ t, step (busy.placeWord 0xF533#16) = .next t :=
  ⟨⟨by decide, rfl, by decide⟩, _, rfl⟩

/-- A tick in Halted. -/
theorem witness_HaltedIsAbsorbing :
    (due .tick { busy with run := .halted .cancelled }).run = .halted .cancelled ∧
    (∃ t, step (due .tick { busy with run := .halted .cancelled }) = .next t) ∧
    ∀ rom rest, (due .tick { busy with run := .halted .cancelled }).schedule ≠ .reset rom :: rest :=
  ⟨rfl, ⟨_, rfl⟩, nofun⟩

/-- A skip that is taken. -/
theorem witness_PcAdvanceRule : ∃ t, exec (.seImm 0#4 0x12#8) busy = .next t ∧ t.pc = busy.pc + 2#16 :=
  ⟨_, rfl, by decide⟩

/-- An addition that sets the flag. -/
theorem witness_RegisterWriteRule : ∃ t, exec (.addReg 0#4 1#4) busy = .next t ∧ t.reg 0#4 = 0x11#8 ∧
    t.reg 15#4 = 1#8 :=
  ⟨_, rfl, by decide, by decide⟩

/-- A store. -/
theorem witness_WriteRights : ∃ t, exec (.ldB 1#4) busy = .next t ∧ t.mem ≠ busy.mem :=
  ⟨_, rfl, by decide⟩

/-- Two states built differently that agree on every piece. -/
theorem witness_PiecesAreTheWholeState : busy.mem.wf ∧ (busy.storeByte 0x300#16 0 0#8).mem.wf ∧
    ∀ p : Piece, p.same busy (busy.storeByte 0x300#16 0 0#8) := by
  refine ⟨by decide, by decide, fun p => ?_⟩
  have h : busy.storeByte 0x300#16 0 0#8 = busy := by decide +kernel
  rw [h]
  cases p <;> rfl

/-- Program P1 at its end. -/
theorem witness_SelfJumpChangesNothing :
    atSelfJump { State.reset with mem := (State.reset.mem.write 0x20C 0x12#8).write 0x20D 0x0C#8, pc := 0x20C#16 } ∧
    engineTurn { State.reset with mem := (State.reset.mem.write 0x20C 0x12#8).write 0x20D 0x0C#8, pc := 0x20C#16 } :=
  ⟨⟨rfl, 0x20C#12, by decide, by decide⟩, rfl, .inl rfl⟩

end Sys2Proof.Tests
end

/-! The rules of the state: what its pieces are, which of them an instruction writes and reads, and the invariant every
agent's step keeps (spec/10_state.md). -/

namespace Sys2Proof.Machine

/-! ### The step: whose turn it is -/

/-- When the engine's move is due, a step is that move, taken off the schedule (R41). -/
theorem step_of_engine_due {s : State} (h : s.schedule = [] ∨ ∃ rest, s.schedule = .engine :: rest) :
    step s = engineMove { s with schedule := s.schedule.tail } := by
  obtain hs | ⟨rest, hs⟩ := h
  · have e : { s with schedule := s.schedule.tail } = s := by rw [hs, List.tail_nil, ← hs]
    rw [e]
    simp only [step, nextMove, hs]
  · rw [step_of_head hs, hs]; rfl

/-- Settles O9: the due move is the engine's, and the engine moves in Running only. -/
theorem engineStuckWhenNotRunning : Obligations.EngineStuckWhenNotRunning := by
  intro s hs
  rw [step_of_engine_due hs]
  exact ⟨fun x hx => by simp only [engineMove, hx], fun c hc => by simp only [engineMove, hc]⟩

/-- The reset contents, no cell listed, are canonical whatever the font. -/
theorem Memory.wf_nil (font : Vector Byte 80) : Memory.wf ⟨font, []⟩ :=
  ⟨.nil, fun _ hc => absurd hc List.not_mem_nil⟩

/-- Settles O50: no cell is listed, no fault recorded, and every slot is zero. -/
theorem resetMeetsTheInvariant : Obligations.ResetMeetsTheInvariant :=
  ⟨Memory.wf_nil defaultFont, rfl, rfl⟩

/-! ### The pieces determine the fields -/

/-- A field held as a vector of 16 is what its accessor reads at every nibble. -/
theorem vector16_ext {α : Type} {a b : Vector α 16} (h : ∀ k : Nibble, a[k.toNat] = b[k.toNat]) : a = b :=
  Vector.ext fun j hj => by
    have e : (BitVec.ofNat 4 j).toNat = j := by rw [BitVec.toNat_ofNat]; omega
    simpa only [e] using h (BitVec.ofNat 4 j)

/-- Settles O57: field by field, memory by its canonical form. -/
theorem piecesAreTheWholeState : Obligations.PiecesAreTheWholeState := by
  intro s t hs ht h
  have hv : t.v = s.v := vector16_ext fun x => h (.reg x)
  have hstack : t.stack = s.stack := vector16_ext fun k => h (.slot k)
  have hkeys : t.keys = s.keys := vector16_ext fun k => h (.key k)
  have hfb : t.fb = s.fb := Framebuffer.ext_cell fun x y => h (.cell x y)
  have hmem : t.mem = s.mem := Memory.ext_read ht hs (h .font) fun a => h (.byte a)
  have hindex : t.index = s.index := h .index
  have hpc : t.pc = s.pc := h .pc
  have hsp : t.sp = s.sp := h .sp
  have hdt : t.dt = s.dt := h .dt
  have hst : t.st = s.st := h .st
  have hrun : t.run = s.run := h .run
  have hfault : t.fault = s.fault := h .fault
  have hdraws : t.draws = s.draws := h .draws
  have hschedule : t.schedule = s.schedule := h .schedule
  have htrace : t.trace = s.trace := h .trace
  cases s
  cases t
  simp_all only

/-! ### The instructions that branch: each either raises its fault or does its work -/

/-- RET raises StackUnderflow or pops (R100, R203). -/
theorem exec_ret_cases {s t : State} (h : exec .ret s = .next t) :
    t = s.raise .stackUnderflow (encode .ret) ∨ t = { s with pc := s.slot s.sp, sp := s.sp - 1#4 } := by
  simp only [exec, execRet] at h
  split at h <;> cases h
  · exact .inl rfl
  · exact .inr rfl

/-- CALL raises StackOverflow or, below 15 levels, pushes (R102, R202). -/
theorem exec_call_cases {nnn : Addr} {s t : State} (h : exec (.call nnn) s = .next t) :
    t = s.raise .stackOverflow (encode (.call nnn)) ∨
      (s.sp ≠ 15#4 ∧ t = { s.setSlot (s.sp + 1#4) s.pc with sp := s.sp + 1#4, pc := zextAddr nnn }) := by
  simp only [exec, execCall] at h
  split at h <;> cases h
  · exact .inl rfl
  · exact .inr ⟨‹_›, rfl⟩

theorem exec_ldF_of_some {x k : Nibble} {s : State} (hk : nibbleOperand (s.reg x) = some k) :
    exec (.ldF x) s = .next { s with index := fontAddr k } := by
  simp only [exec, execLdF, hk]

theorem exec_ldF_of_none {x : Nibble} {s : State} (hn : nibbleOperand (s.reg x) = none) :
    exec (.ldF x) s = .next (s.raise .operandRange (encode (.ldF x))) := by
  simp only [exec, execLdF, hn]

/-- LD F raises OperandRange or writes I (R142, R204). -/
theorem exec_ldF_cases {x : Nibble} {s t : State} (h : exec (.ldF x) s = .next t) :
    t = s.raise .operandRange (encode (.ldF x)) ∨ ∃ k, t = { s with index := fontAddr k } := by
  cases hd : nibbleOperand (s.reg x) with
  | none => rw [exec_ldF_of_none hd] at h; cases h; exact .inl rfl
  | some k => rw [exec_ldF_of_some hd] at h; cases h; exact .inr ⟨_, rfl⟩

theorem exec_skp_of_some {x k : Nibble} {s : State} (hk : nibbleOperand (s.reg x) = some k) :
    exec (.skp x) s = .next (s.skipIf (s.key k)) := by
  simp only [exec, execSkp, hk]

theorem exec_skp_of_none {x : Nibble} {s : State} (hn : nibbleOperand (s.reg x) = none) :
    exec (.skp x) s = .next (s.raise .operandRange (encode (.skp x))) := by
  simp only [exec, execSkp, hn]

/-- SKP raises OperandRange or skips on a condition (R180, R204). -/
theorem exec_skp_cases {x : Nibble} {s t : State} (h : exec (.skp x) s = .next t) :
    t = s.raise .operandRange (encode (.skp x)) ∨ ∃ c, t = s.skipIf c := by
  cases hd : nibbleOperand (s.reg x) with
  | none => rw [exec_skp_of_none hd] at h; cases h; exact .inl rfl
  | some k => rw [exec_skp_of_some hd] at h; cases h; exact .inr ⟨_, rfl⟩

theorem exec_sknp_of_some {x k : Nibble} {s : State} (hk : nibbleOperand (s.reg x) = some k) :
    exec (.sknp x) s = .next (s.skipIf (!s.key k)) := by
  simp only [exec, execSknp, hk]

theorem exec_sknp_of_none {x : Nibble} {s : State} (hn : nibbleOperand (s.reg x) = none) :
    exec (.sknp x) s = .next (s.raise .operandRange (encode (.sknp x))) := by
  simp only [exec, execSknp, hn]

/-- SKNP raises OperandRange or skips on a condition (R181, R204). -/
theorem exec_sknp_cases {x : Nibble} {s t : State} (h : exec (.sknp x) s = .next t) :
    t = s.raise .operandRange (encode (.sknp x)) ∨ ∃ c, t = s.skipIf c := by
  cases hd : nibbleOperand (s.reg x) with
  | none => rw [exec_sknp_of_none hd] at h; cases h; exact .inl rfl
  | some k => rw [exec_sknp_of_some hd] at h; cases h; exact .inr ⟨_, rfl⟩

/-! ### PC -/

/-- A skip leaves PC or adds 2 to it (R108). -/
theorem pc_skipIf_cases (s : State) (c : Bool) : (s.skipIf c).pc = s.pc ∨ (s.skipIf c).pc = s.pc + 2#16 := by
  cases c
  · exact .inl rfl
  · exact .inr rfl

/-- Settles O53: a skip is PC or PC + 2, a raise leaves PC alone, and the rest does not write it. -/
theorem pcAdvanceRule : Obligations.PcAdvanceRule := by
  intro i s t h
  cases i with
  | seImm x nn | sneImm x nn | seReg x y | sneReg x y =>
    cases h; exact (pc_skipIf_cases s _).imp_right fun e => .inl ⟨e, by simp⟩
  | skp x =>
    obtain rfl | ⟨c, rfl⟩ := exec_skp_cases h
    · exact .inl rfl
    · exact (pc_skipIf_cases s c).imp_right fun e => .inl ⟨e, by simp⟩
  | sknp x =>
    obtain rfl | ⟨c, rfl⟩ := exec_sknp_cases h
    · exact .inl rfl
    · exact (pc_skipIf_cases s c).imp_right fun e => .inl ⟨e, by simp⟩
  | jp nnn | call nnn | jpV0 nnn | ret => simp
  | ldF x => obtain rfl | ⟨d, rfl⟩ := exec_ldF_cases h <;> exact .inl rfl
  | storeRegs x => cases h; rw [State.storeRange_fields]; exact .inl rfl
  | loadRegs x => cases h; rw [State.loadRange_fields]; exact .inl rfl
  | _ => cases h; exact .inl (by simp)

/-! ### Registers -/

/-- A register write is seen in the register written only (R20). -/
theorem reg_setReg_cases (s : State) (x r : Nibble) (b : Byte) :
    (s.setReg x b).reg r = s.reg r ∨ (r == x) = true := by
  by_cases hx : x = r
  · exact .inr (beq_iff_eq.mpr hx.symm)
  · exact .inl (by rw [State.reg_setReg, if_neg hx])

/-- A flag write leaves its byte in VF (R21). -/
theorem reg_vf_setFlag (s : State) (c : Bool) : (s.setFlag c).reg 15#4 = flagByte c := by
  rw [State.reg_setFlag]; exact if_pos rfl

/-- A flag write leaves every register but VF alone (R21). -/
theorem reg_setFlag_of_ne (s : State) (c : Bool) {r : Nibble} (hr : r ≠ 15#4) : (s.setFlag c).reg r = s.reg r := by
  rw [State.reg_setFlag]; exact if_neg hr

/-- A result with its flag is seen in the register written and in VF only (R20, R21). -/
theorem reg_setResultFlag_cases (s : State) (x r : Nibble) (b : Byte) (c : Bool) :
    (s.setResultFlag x b c).reg r = s.reg r ∨ (r == x) = true ∨ r = 15#4 := by
  by_cases hr : r = 15#4
  · exact .inr (.inr hr)
  · rw [State.setResultFlag, reg_setFlag_of_ne _ c hr]
    exact (reg_setReg_cases s x r b).imp_right .inl

/-- A register an instruction changes is its named destination or, for the six of R21, VF. -/
theorem exec_reg_cases {i : Instr} {s t : State} (h : exec i s = .next t) (r : Nibble) :
    t.reg r = s.reg r ∨ namedDest i r = true ∨ (r = 15#4 ∧ writesFlag i = true) := by
  cases i with
  | ldImm x nn | addImm x nn | rnd x nn | ldReg x y | orReg x y | andReg x y | xorReg x y | ldVxDt x =>
    cases h; exact (reg_setReg_cases s x r _).imp_right .inl
  | addReg x y | subReg x y | shr x y | subnReg x y | shl x y =>
    cases h
    exact (reg_setResultFlag_cases s x r _ _).imp_right fun e => e.imp_right fun hr => ⟨hr, rfl⟩
  | drw x y n =>
    cases h
    by_cases hr : r = 15#4
    · exact .inr (.inr ⟨hr, rfl⟩)
    · exact .inl ((State.reg_congr (State.emitIf_v _ _) r).trans (reg_setFlag_of_ne _ _ hr))
  | loadRegs x =>
    cases h
    have hx := x.isLt
    by_cases hr : r.toNat ≤ x.toNat
    · exact .inr (.inl (decide_eq_true hr))
    · exact .inl (by rw [State.loadRange_reg s (by rw [blockLen]; omega), if_neg (by rw [blockLen]; omega)])
  | storeRegs x => cases h; rw [State.storeRange_fields]; exact .inl rfl
  | ret => obtain rfl | rfl := exec_ret_cases h <;> exact .inl rfl
  | call nnn => obtain rfl | ⟨-, rfl⟩ := exec_call_cases h <;> exact .inl rfl
  | ldF x => obtain rfl | ⟨d, rfl⟩ := exec_ldF_cases h <;> exact .inl rfl
  | skp x => obtain rfl | ⟨c, rfl⟩ := exec_skp_cases h <;> exact .inl (State.reg_congr (by simp) r)
  | sknp x => obtain rfl | ⟨c, rfl⟩ := exec_sknp_cases h <;> exact .inl (State.reg_congr (by simp) r)
  | _ => cases h; exact .inl (State.reg_congr (by simp) r)

/-- The six instructions of R21 leave a flag in VF, 0 or 1. -/
theorem exec_flag_cases {i : Instr} {s t : State} (h : exec i s = .next t) (hi : writesFlag i = true) :
    t.reg 15#4 = 0#8 ∨ t.reg 15#4 = 1#8 := by
  have hflag : ∃ c, t.reg 15#4 = flagByte c := by
    cases i with
    | addReg x y | subReg x y | shr x y | subnReg x y | shl x y =>
      cases h; exact ⟨_, reg_vf_setFlag _ _⟩
    | drw x y n => cases h; exact ⟨_, (State.reg_congr (State.emitIf_v _ _) _).trans (reg_vf_setFlag _ _)⟩
    | _ => cases hi
  obtain ⟨c, hc⟩ := hflag
  rw [hc]
  exact flagByte_cases c

/-- Settles O54: the registers changed are the ones named, and the six flag writers leave a flag. -/
theorem registerWriteRule : Obligations.RegisterWriteRule :=
  fun _ _ _ h => ⟨fun r hr => (exec_reg_cases h r).resolve_left hr, exec_flag_cases h⟩

/-! ### Write rights -/

/-- Settles O55, instruction by instruction: the ones that branch by their inversion, the block moves by the one field
they change. -/
theorem writeRights : Obligations.WriteRights := by
  intro i s t h
  cases i with
  | ret => obtain rfl | rfl := exec_ret_cases h <;> simp
  | call nnn => obtain rfl | ⟨-, rfl⟩ := exec_call_cases h <;> simp
  | ldF x => obtain rfl | ⟨d, rfl⟩ := exec_ldF_cases h <;> simp
  | skp x => obtain rfl | ⟨c, rfl⟩ := exec_skp_cases h <;> simp
  | sknp x => obtain rfl | ⟨c, rfl⟩ := exec_sknp_cases h <;> simp
  | storeRegs x =>
    have hfont := State.storeRange_font s (blockLen x)
    cases h
    rw [State.storeRange_fields]
    simp [hfont]
  | loadRegs x => cases h; rw [State.loadRange_fields]; simp
  | _ => cases h; simp

/-! ### What no instruction reads -/

/-- The state with other contents of ST, RUN and FAULT (R27, R31, R32). -/
def State.withStRunFault (s : State) (b : Byte) (r : RunState) (f : Option FaultRecord) : State :=
  { s with st := b, run := r, fault := f }

section
variable (s : State) (b : Byte) (r : RunState) (f : Option FaultRecord)

theorem frame_withStRunFault : Frame (only [.st, .run, .fault]) s (s.withStRunFault b r f) := by
  intro p hp
  cases p with
  | st | run | fault => exact absurd (by simp [only]) hp
  | _ => rfl

theorem skipIf_withStRunFault (c : Bool) :
    (s.withStRunFault b r f).skipIf c = (s.skipIf c).withStRunFault b r f := by
  cases c <;> rfl

theorem emitIf_withStRunFault (c : Bool) :
    (s.withStRunFault b r f).emitIf c = (s.emitIf c).withStRunFault b r f := by
  cases c <;> rfl

theorem storeRange_withStRunFault (n : Nat) :
    (s.withStRunFault b r f).storeRange n = (s.storeRange n).withStRunFault b r f := by
  induction n with
  | zero => rfl
  | succ n ih => rw [State.storeRange, ih]; rfl

theorem loadRange_withStRunFault (n : Nat) :
    (s.withStRunFault b r f).loadRange n = (s.loadRange n).withStRunFault b r f := by
  induction n with
  | zero => rfl
  | succ n ih => rw [State.loadRange, ih]; rfl

/-- From states that differ in ST, RUN and FAULT only, an instruction ends in states that differ in them only. -/
theorem exec_withStRunFault (i : Instr) : ∃ t b' r' f',
    exec i s = .next t ∧ exec i (s.withStRunFault b r f) = .next (t.withStRunFault b' r' f') := by
  cases i with
  | seImm x nn | sneImm x nn | seReg x y | sneReg x y =>
    exact ⟨_, b, r, f, rfl, congrArg _ (skipIf_withStRunFault s b r f _)⟩
  | cls => exact ⟨_, b, r, f, rfl, congrArg _ (emitIf_withStRunFault { s with fb := Framebuffer.blank } b r f _)⟩
  | drw x y n =>
    exact ⟨_, b, r, f, rfl, congrArg _ (emitIf_withStRunFault
      ({ s with fb := (drawSprite s x y n).fb }.setFlag (drawSprite s x y n).collision) b r f _)⟩
  | storeRegs x => exact ⟨_, b, r, f, rfl, congrArg _ (storeRange_withStRunFault s b r f _)⟩
  | loadRegs x => exact ⟨_, b, r, f, rfl, congrArg _ (loadRange_withStRunFault s b r f _)⟩
  | ret =>
    by_cases hsp : s.sp = 0#4
    · exact ⟨_, b, _, _, if_pos hsp, if_pos hsp⟩
    · exact ⟨_, b, r, f, if_neg hsp, if_neg hsp⟩
  | call nnn =>
    by_cases hsp : s.sp = 15#4
    · exact ⟨_, b, _, _, if_pos hsp, if_pos hsp⟩
    · exact ⟨_, b, r, f, if_neg hsp, if_neg hsp⟩
  | ldF x =>
    cases hd : nibbleOperand (s.reg x) with
    | none => exact ⟨_, b, _, _, exec_ldF_of_none hd, exec_ldF_of_none hd⟩
    | some k => exact ⟨_, b, r, f, exec_ldF_of_some hd, exec_ldF_of_some hd⟩
  | skp x =>
    cases hd : nibbleOperand (s.reg x) with
    | none => exact ⟨_, b, _, _, exec_skp_of_none hd, exec_skp_of_none hd⟩
    | some k =>
      exact ⟨_, b, r, f, exec_skp_of_some hd,
        (exec_skp_of_some (s := s.withStRunFault b r f) hd).trans (congrArg _ (skipIf_withStRunFault s b r f _))⟩
  | sknp x =>
    cases hd : nibbleOperand (s.reg x) with
    | none => exact ⟨_, b, _, _, exec_sknp_of_none hd, exec_sknp_of_none hd⟩
    | some k =>
      exact ⟨_, b, r, f, exec_sknp_of_some hd,
        (exec_sknp_of_some (s := s.withStRunFault b r f) hd).trans (congrArg _ (skipIf_withStRunFault s b r f _))⟩
  | ldVxK x => exact ⟨_, b, _, f, rfl, rfl⟩
  | ldStVx x => exact ⟨_, _, r, f, rfl, rfl⟩
  | _ => exact ⟨_, b, r, f, rfl, rfl⟩

end

/-- Settles O56: the two runs end in states that differ in ST, RUN and FAULT only. -/
theorem noInstructionReadsStRunFault : Obligations.NoInstructionReadsStRunFault := by
  intro i s b r f
  obtain ⟨t, b', r', f', ht, hu⟩ := exec_withStRunFault s b r f i
  exact ⟨t, _, ht, hu, frame_withStRunFault t b' r' f'⟩

/-! ### The invariant -/

/-- Decoding the word of an instruction that can raise a fault gives it back (R74, R75). -/
theorem decodeWord_encode_of_raisedBy {k : FaultKind} {i : Instr} (h : k.raisedBy (.instr i) = true) :
    decodeWord (encode i) = .instr i := by
  cases i with
  | ret => rfl
  | call nnn => simp [encode, decodeWord]
  | ldF x => simp [encode, decodeWord, decodeMisc]
  | skp x => simp [encode, decodeWord, decodeKey]
  | sknp x => simp [encode, decodeWord, decodeKey]
  | _ => cases k <;> cases h

/-- An instruction keeps memory in canonical form: only LD B and LD [I] write it, inside its 4096 bytes (R58). -/
theorem exec_mem_wf {i : Instr} {s t : State} (h : exec i s = .next t) (hm : s.mem.wf) : t.mem.wf := by
  obtain ⟨-, -, -, -, -, -, -, hmem | ⟨x, rfl⟩ | ⟨x, rfl⟩, -⟩ := writeRights i s t h
  · rwa [hmem]
  · cases h
    exact State.storeByte_wf (State.storeByte_wf (State.storeByte_wf hm _ _ _) _ _ _) _ _ _
  · cases h
    exact State.storeRange_wf hm _

/-- No instruction writes slot 0 of the stack: a CALL pushes to a slot above SP, and SP does not wrap (R25, R202). -/
theorem exec_keeps_slot_zero {i : Instr} {s t : State} (h : exec i s = .next t) : t.slot 0#4 = s.slot 0#4 := by
  obtain ⟨-, -, -, -, ⟨-, hstack⟩ | ⟨nnn, rfl⟩ | ⟨-, hstack⟩, -⟩ := writeRights i s t h
  · exact State.slot_congr hstack _
  · obtain rfl | ⟨hsp, rfl⟩ := exec_call_cases h
    · rfl
    · have hslot : s.sp + 1#4 ≠ 0#4 := fun e => hsp (by bv_omega)
      exact (State.slot_setSlot s _ _ _).trans (if_neg hslot)
  · exact State.slot_congr hstack _

/-- A consistent state in which no fault has halted the engine has no fault recorded (R32). -/
theorem fault_eq_none {s : State} (h : faultConsistent s) (hr : noFault s) : s.fault = none := by
  unfold faultConsistent at h
  split at h
  · exact h
  · exact h
  · exact h
  · exact absurd ‹_› (hr _)

/-- A raise of a fault the word raises and the state explains leaves a consistent record (R206, R207). -/
theorem faultConsistent_raise {s : State} {k : FaultKind} {op : Word} (hk : k.raisedBy (decodeWord op) = true)
    (he : k.explained op s) : faultConsistent (s.raise k op) :=
  ⟨op, rfl, hk, he⟩

/-- An instruction run with no fault recorded leaves a consistent record (R32). -/
theorem exec_faultConsistent {i : Instr} {s t : State} (h : exec i s = .next t) (hr : s.run = .running)
    (hf : s.fault = none) : faultConsistent t := by
  obtain ⟨k, rfl, hk, he⟩ | ⟨x, -, rfl⟩ | ⟨hrun, hfault⟩ := exec_run_cases h
  · exact faultConsistent_raise (by rwa [decodeWord_encode_of_raisedBy hk]) he
  · exact hf
  · rw [faultConsistent, hrun, hr, hfault]; exact hf

/-- The engine's cycle keeps the invariant (R70). -/
theorem cycle_inv {s t : State} (hi : s.Inv) (hr : s.run = .running) (h : cycle s = .next t) : t.Inv := by
  obtain ⟨hm, hc, hz⟩ := hi
  have hf : s.fault = none := fault_eq_none hc fun k hk => by simp [hr] at hk
  obtain ⟨i, -, he⟩ | ⟨g, hg, rfl⟩ := cycle_cases h
  · exact ⟨exec_mem_wf he hm, exec_faultConsistent he hr hf, (exec_keeps_slot_zero he).trans hz⟩
  · exact ⟨hm, faultConsistent_raise (by rw [hg]; rfl) trivial, hz⟩

/-- A KeyPress keeps the invariant: it ends a wait, in which no fault is recorded (R183). -/
theorem keyPress_inv {s : State} (hi : s.Inv) (k : Nibble) : (s.keyPress k).Inv := by
  obtain ⟨x, hr, e⟩ | ⟨-, e⟩ := keyPress_cases s k
  · obtain ⟨hm, hc, hz⟩ := hi
    have hf : s.fault = none := fault_eq_none hc fun k hk => by simp [hr] at hk
    rw [e]
    exact ⟨hm, hf, hz⟩
  · rwa [e]

/-- A Cancel keeps the invariant: it halts an engine that has recorded no fault (R211). -/
theorem cancel_inv {s : State} (hi : s.Inv) : s.cancel.Inv := by
  obtain ⟨hr, e⟩ | ⟨c, -, e⟩ := cancel_cases s
  · obtain ⟨hm, hc, hz⟩ := hi
    have hf : s.fault = none := fault_eq_none hc fun k => hr (.fault k)
    rw [e]
    exact ⟨hm, hf, hz⟩
  · rwa [e]

/-- The state after an accepted reset meets the invariant, whatever state it is reset from (R240, R241). -/
theorem boot_inv (s : State) {rom : List Byte} (h : romWellFormed rom = true) : (s.boot rom).Inv := by
  have hlen : rom.length ≤ Config.romMax := of_decide_eq_true h
  have hfit : Config.romBase + rom.length ≤ Config.memSize := by
    simp only [Config.romMax, Config.romBase, Config.memSize] at *; omega
  exact ⟨Memory.loadImage_wf (Memory.wf_nil s.mem.font) hfit, rfl, rfl⟩

/-- Every agent's move keeps the invariant (R40). -/
theorem applyMove_inv {m : Move} {s t : State} (hi : s.Inv) (h : applyMove m s = .next t) : t.Inv := by
  obtain ⟨-, hr, hcyc⟩ | ⟨-, rfl⟩ | ⟨k, d, -, rfl⟩ | ⟨k, -, rfl⟩ | ⟨-, rfl⟩ | ⟨rom, -, hrom, rfl⟩ := applyMove_cases h
  · exact cycle_inv hi hr hcyc
  · exact hi
  · exact hi
  · exact keyPress_inv hi k
  · exact cancel_inv hi
  · exact boot_inv s hrom

/-- Settles O51: a step is the engine's cycle or a scheduled move, and the schedule is no part of the invariant. -/
theorem stepKeepsTheInvariant : Obligations.StepKeepsTheInvariant := by
  intro s t hi h
  obtain ⟨-, he⟩ | ⟨m, rest, -, hm⟩ := step_cases h
  · exact applyMove_inv (m := .engine) hi he
  · exact applyMove_inv (s := { s with schedule := rest }) hi hm

end Sys2Proof.Machine

/-! The fetch: the word at PC as a number, and a block store over it (spec/20_memory.md). -/

namespace Sys2Proof.Machine

/-! ### The word fetched -/

/-- The first byte is the high half of the word (R55). -/
theorem toNat_wordOfBytes (b0 b1 : Byte) : (wordOfBytes b0 b1).toNat = 256 * b0.toNat + b1.toNat := by
  rw [wordOfBytes, toNat_append_add]; omega

/-- Settles O6: offset 0 is PC mod 4096, and offset 1 wraps on its own. -/
theorem fetchIsBigEndian : Obligations.FetchIsBigEndian :=
  fun _ _ => toNat_wordOfBytes _ _

/-! ### A block store over the word at PC -/

/-- Bases that name one byte of memory name the same byte at every offset (R51, R60). -/
theorem memAddr_congr {p q : Word} (h : p.toNat % 4096 = q.toNat % 4096) (k : Nat) : memAddr p k = memAddr q k := by
  simp only [memAddr, Config.memSize]; omega

/-- A store of two registers or more from the word's address makes it the word of V[0] and V[1] (R64, R144). -/
theorem State.fetchWord_storeRange (s : State) {n : Nat} {pc : Word} (h2 : 2 ≤ n) (h16 : n ≤ 16)
    (h : s.index.toNat % 4096 = pc.toNat % 4096) :
    fetchWord (s.storeRange n).mem pc = wordOfBytes (s.reg 0#4) (s.reg 1#4) := by
  have h0 := s.storeRange_read h16 (show 0 < n by omega)
  have h1 := s.storeRange_read h16 (show 1 < n by omega)
  rw [memAddr_congr h] at h0 h1
  rw [fetchWord, h0, h1]

/-- Settles O34: the store leaves PC alone, so the fetch reads the two bytes just stored. -/
theorem storeIsSeenByTheNextFetch : Obligations.StoreIsSeenByTheNextFetch := by
  intro x s t hx hpc he
  cases he
  have h2 : 2 ≤ blockLen x := by rw [blockLen]; omega
  have h16 : blockLen x ≤ 16 := by rw [blockLen]; omega
  have hkeep : (s.storeRange (blockLen x)).pc = s.pc := by rw [State.storeRange_fields]
  rw [hkeep, s.fetchWord_storeRange h2 h16 hpc, toNat_wordOfBytes]

end Sys2Proof.Machine

/-! The decoder and the encoder undo each other, the decoder answers as the opcode map says, and a step runs the
instruction decoded (spec/30_encoding.md). -/

namespace Sys2Proof.Laws.EncodesToItsRow

/-- The law of Laws/PerInstr.lean, its lemma per constructor put together. -/
theorem ofInstr : ∀ i : Instr, Statement i
  | .cls => cls | .ret => ret | .jp nnn => jp nnn | .call nnn => call nnn
  | .seImm x nn => seImm x nn | .sneImm x nn => sneImm x nn | .seReg x y => seReg x y | .sneReg x y => sneReg x y
  | .ldImm x nn => ldImm x nn | .addImm x nn => addImm x nn | .ldReg x y => ldReg x y | .orReg x y => orReg x y
  | .andReg x y => andReg x y | .xorReg x y => xorReg x y | .addReg x y => addReg x y | .subReg x y => subReg x y
  | .shr x y => shr x y | .subnReg x y => subnReg x y | .shl x y => shl x y | .ldI nnn => ldI nnn
  | .jpV0 nnn => jpV0 nnn | .rnd x nn => rnd x nn | .drw x y n => drw x y n | .skp x => skp x | .sknp x => sknp x
  | .ldVxDt x => ldVxDt x | .ldDtVx x => ldDtVx x | .ldStVx x => ldStVx x | .ldVxK x => ldVxK x | .addI x => addI x
  | .ldF x => ldF x | .ldB x => ldB x | .storeRegs x => storeRegs x | .loadRegs x => loadRegs x

end Sys2Proof.Laws.EncodesToItsRow

namespace Sys2Proof
open Sys2Proof.Machine

/-! ### The word of an instruction decodes to it -/

/-- Settles O1, by the branch of the decode tree an instruction's word takes. -/
theorem decodeOfEncode : Obligations.DecodeOfEncode := by
  intro i
  cases i with
  | cls | ret => rfl
  | jp nnn | call nnn | ldI nnn | jpV0 nnn => simp [encode, decodeWord]
  | seImm x nn | sneImm x nn | ldImm x nn | addImm x nn | rnd x nn => simp [encode, decodeWord]
  | drw x y n => simp [encode, decodeWord]
  | seReg x y | sneReg x y => simp [encode, decodeWord, decodeSubZero]
  | ldReg x y | orReg x y | andReg x y | xorReg x y | addReg x y | subReg x y | shr x y | subnReg x y | shl x y =>
    simp [encode, decodeWord, decodeAlu]
  | skp x | sknp x => simp [encode, decodeWord, decodeKey]
  | ldVxDt x | ldDtVx x | ldStVx x | ldVxK x | addI x | ldF x | ldB x | storeRegs x | loadRegs x =>
    simp [encode, decodeWord, decodeMisc]

/-! ### The words of a format, by the fields the decode tree looks at -/

section
variable {w : Word} {t : Nibble} (ht : (opTop w).toNat = t.toNat)
include ht

/-- A word whose top nibble is T is the ADDR word of T and its own address field (R72). -/
theorem fmtAddr_of_top : fmtAddr t (opNNN w) = w := by
  rw [← BitVec.eq_of_toNat_eq ht, fmtAddr_fields]

/-- A word whose top nibble is T and low byte is NN is the REG_IMM word of T, its own X, and NN (R72). -/
theorem fmtRegImm_of_top_low {nn : Byte} (hnn : (opNN w).toNat = nn.toNat) : fmtRegImm t (opX w) nn = w := by
  rw [← BitVec.eq_of_toNat_eq ht, ← BitVec.eq_of_toNat_eq hnn, fmtRegImm_fields]

/-- A word whose top nibble is T and sub-code is N is the REG_REG word of T, its own X and Y, and N (R72). -/
theorem fmtRegReg_of_top_sub {n : Nibble} (hn : (opN w).toNat = n.toNat) : fmtRegReg t (opX w) (opY w) n = w := by
  rw [← BitVec.eq_of_toNat_eq ht, ← BitVec.eq_of_toNat_eq hn, fmtRegReg_fields]

end

/-! ### Every answer of the decode tree is right for its word -/

/-- The answer says what the word is: its instruction has that word, its illegal set has the word in it (R74, R76). -/
def Decoded.rightFor (w : Word) : Decoded → Prop
  | .instr i => encode i = w
  | .illegal g => illegalWord g w.toNat = true
  | .truncated => False

section
variable {w : Word}

theorem decodeZero_rightFor (ht : (opTop w).toNat = 0) : (decodeZero w).rightFor w := by
  unfold decodeZero
  split
  · exact (BitVec.eq_of_toNat_eq ‹_›).symm
  · exact (BitVec.eq_of_toNat_eq ‹_›).symm
  · simp_all [Decoded.rightFor, illegalWord, toNat_opTop]

/-- For a register skip with its top nibble and its illegal set (R74, D3). -/
theorem decodeSubZero_rightFor {t : Nibble} {i : Instr} {g : IllegalSet} (ht : (opTop w).toNat = t.toNat)
    (hi : encode i = fmtRegReg t (opX w) (opY w) 0#4)
    (hg : illegalWord g w.toNat = (w.toNat / 4096 == t.toNat && w.toNat % 16 != 0)) :
    (decodeSubZero w i g).rightFor w := by
  unfold decodeSubZero
  split
  · exact hi.trans (fmtRegReg_of_top_sub ht ‹_›)
  · simp_all [Decoded.rightFor, toNat_opTop, toNat_opN]

theorem decodeAlu_rightFor (ht : (opTop w).toNat = 8) : (decodeAlu w).rightFor w := by
  have hn : (opN w).toNat < 16 := (opN w).isLt
  unfold decodeAlu
  split
  iterate 9 exact fmtRegReg_of_top_sub ht ‹_›
  simp only [imp_false] at *
  simp [Decoded.rightFor, illegalWord, ← toNat_opTop, ← toNat_opN, ht]
  omega

theorem decodeKey_rightFor (ht : (opTop w).toNat = 14) : (decodeKey w).rightFor w := by
  unfold decodeKey
  split
  iterate 2 exact fmtRegImm_of_top_low ht ‹_›
  simp_all [Decoded.rightFor, illegalWord, toNat_opTop, toNat_opNN]

theorem decodeMisc_rightFor (ht : (opTop w).toNat = 15) : (decodeMisc w).rightFor w := by
  unfold decodeMisc
  split
  iterate 9 exact fmtRegImm_of_top_low ht ‹_›
  simp_all [Decoded.rightFor, illegalWord, toNat_opTop, toNat_opNN]

end

/-- The decode tree, one line for each top nibble (R74). -/
theorem decodeWord_rightFor (w : Word) : (decodeWord w).rightFor w := by
  have ht : (opTop w).toNat < 16 := (opTop w).isLt
  unfold decodeWord
  split
  · exact decodeZero_rightFor ‹_›
  · exact fmtAddr_of_top ‹_›
  · exact fmtAddr_of_top ‹_›
  · exact fmtRegImm_of_top_low ‹_› rfl
  · exact fmtRegImm_of_top_low ‹_› rfl
  · exact decodeSubZero_rightFor ‹_› rfl rfl
  · exact fmtRegImm_of_top_low ‹_› rfl
  · exact fmtRegImm_of_top_low ‹_› rfl
  · exact decodeAlu_rightFor ‹_›
  · exact decodeSubZero_rightFor ‹_› rfl rfl
  · exact fmtAddr_of_top ‹_›
  · exact fmtAddr_of_top ‹_›
  · exact fmtRegImm_of_top_low ‹_› rfl
  · exact fmtRegReg_of_top_sub ‹_› rfl
  · exact decodeKey_rightFor ‹_›
  · have h15 : (opTop w).toNat = 15 := by simp only [imp_false] at *; omega
    exact decodeMisc_rightFor h15

/-- Settles O2: it is what a right answer says of an instruction. -/
theorem encodeOfDecode : Obligations.EncodeOfDecode := by
  intro w i h
  have hw := decodeWord_rightFor w
  rwa [h] at hw

/-! ### The opcode map -/

/-- The word of an instruction is selected by its row (R75). -/
theorem wordWellFormed_encode (i : Instr) : wordWellFormed (encode i) = true := by
  obtain ⟨r, hr, hsel⟩ := Option.map_eq_some_iff.mp (Laws.EncodesToItsRow.ofInstr i)
  exact List.any_eq_true.mpr ⟨r, List.mem_of_getElem? hr, hsel⟩

/-- No row selects a word of an illegal set (R75, R76). -/
theorem not_wordWellFormed_of_illegalWord {g : IllegalSet} {w : Word} (h : illegalWord g w.toNat = true) :
    wordWellFormed w = false := by
  simp only [wordWellFormed, opcodeTable, opcodeRowsA, opcodeRowsB, opcodeRowsC, List.any_eq_false, List.cons_append,
    List.nil_append, List.forall_mem_cons, selects_F000, selects_F00F, selects_F0FF, selects_FFFF, BitVec.toNat_ofNat]
  cases g with
  | zeroGroup | seRegGroup | aluGroup | sneRegGroup | keyGroup | miscGroup =>
    simp [illegalWord] at h ⊢
    omega

/-- Settles O3: a word that decodes is an instruction's, and an illegal set lies outside the map. -/
theorem decodeAcceptsExactlyTheMap : Obligations.DecodeAcceptsExactlyTheMap := by
  intro w
  split
  next i hi =>
    rw [← encodeOfDecode w i hi]
    exact wordWellFormed_encode i
  next g hg =>
    have hw := decodeWord_rightFor w
    rw [hg] at hw
    exact ⟨not_wordWellFormed_of_illegalWord hw, hw⟩
  next ht => exact decodeWord_ne_truncated w ht

/-- The patterns of two rows differ in a bit that both masks look at (R75). -/
def OpcodeRow.clashes (r q : OpcodeRow) : Bool := r.pattern &&& q.mask != q.pattern &&& r.mask

/-- A word selects at most one of two rows that clash. -/
theorem OpcodeRow.not_selects_of_clashes {r q : OpcodeRow} {w : Word} (h : r.clashes q = true)
    (hr : r.selects w = true) : ¬ q.selects w = true := by
  intro hq
  have hr : w &&& r.mask = r.pattern := beq_iff_eq.mp hr
  have hq : w &&& q.mask = q.pattern := beq_iff_eq.mp hq
  refine bne_iff_ne.mp h ?_
  rw [← hr, ← hq]
  ac_rfl

theorem opcodeTable_pairwise_clashes : opcodeTable.Pairwise fun r q => r.clashes q = true := by decide

/-- A word selects at most one of rows that clash in pairs. -/
theorem length_filter_selects_le_one {rows : List OpcodeRow} (h : rows.Pairwise fun r q => r.clashes q = true)
    (w : Word) : (rows.filter fun r => r.selects w).length ≤ 1 := by
  induction h with
  | nil => exact Nat.zero_le 1
  | @cons r rows hr _ ih =>
    by_cases hs : r.selects w = true
    · have hnil : rows.filter (fun q => q.selects w) = [] :=
        List.filter_eq_nil_iff.mpr fun q hq => OpcodeRow.not_selects_of_clashes (hr q hq) hs
      rw [List.filter_cons, if_pos hs, hnil, List.length_singleton]
    · rwa [List.filter_cons, if_neg hs]

/-- Settles O4: the patterns of any two rows clash. -/
theorem opcodeRowsDisjoint : Obligations.OpcodeRowsDisjoint :=
  ⟨rfl, length_filter_selects_le_one opcodeTable_pairwise_clashes⟩

/-! ### Words written out, and the cycle -/

/-- Settles O5, by running the decoder on each word. -/
theorem sampleWordsDecode : Obligations.SampleWordsDecode := by
  unfold Obligations.SampleWordsDecode
  decide

/-- Settles O7: the step is a cycle, and the cycle executes what it decodes. -/
theorem stepRunsTheDecodedInstruction : Obligations.StepRunsTheDecodedInstruction := by
  intro s i ht hi
  rw [step_of_engineTurn ht, cycle, hi]
  rfl

end Sys2Proof

/-! Control transfer: jumps, the call and its return, and the skips (spec/40_control_transfer.md). -/

namespace Sys2Proof.Machine

/-! ### Jumps -/

/-- Zero extension keeps the number of an address field (R73). -/
theorem toNat_zextAddr (nnn : Addr) : (zextAddr nnn).toNat = nnn.toNat :=
  BitVec.toNat_setWidth_of_le (by decide)

/-- Zero extension keeps the number of a register value (R107). -/
theorem toNat_zextByte (b : Byte) : (zextByte b).toNat = b.toNat :=
  BitVec.toNat_setWidth_of_le (by decide)

/-- The sum of a 12-bit and an 8-bit number fits in 16 bits (R107). -/
theorem toNat_indexedTarget (nnn : Addr) (b : Byte) : (indexedTarget nnn b).toNat = nnn.toNat + b.toNat := by
  have hn : nnn.toNat < 4096 := nnn.isLt
  have hv : b.toNat < 256 := b.isLt
  rw [indexedTarget, BitVec.toNat_add, toNat_zextAddr, toNat_zextByte]
  omega

/-- Settles O14: a jump writes PC only. -/
theorem jumpLoadsItsAddress : Obligations.JumpLoadsItsAddress :=
  fun nnn s => ⟨_, rfl, toNat_zextAddr nnn, frame_pc s _⟩

/-- Settles O20: the largest sum is 0xFFF + 0xFF. -/
theorem indexedJumpAddsV0 : Obligations.IndexedJumpAddsV0 := by
  intro nnn s
  have hpc := toNat_indexedTarget nnn (s.reg 0#4)
  have hn : nnn.toNat < 4096 := nnn.isLt
  have hv : (s.reg 0#4).toNat < 256 := (s.reg 0#4).isLt
  exact ⟨_, rfl, hpc, hpc.trans_le (by omega), frame_pc s _⟩

/-! ### Call and return -/

theorem frame_pc_sp (s : State) (w : Word) (k : Nibble) :
    Frame (only [.pc, .sp]) s { s with pc := w, sp := k } := by
  intro p hp
  cases p with
  | pc | sp => exact absurd (by simp [only]) hp
  | _ => rfl

/-- RET with an address on the stack pops it (R100). -/
theorem exec_ret_of_ne {s : State} (h : s.sp ≠ 0#4) :
    exec .ret s = .next { s with pc := s.slot s.sp, sp := s.sp - 1#4 } := if_neg h

/-- CALL below 15 levels pushes PC (R102). -/
theorem exec_call_of_ne (nnn : Addr) {s : State} (h : s.sp ≠ 15#4) :
    exec (.call nnn) s = .next { s.setSlot (s.sp + 1#4) s.pc with sp := s.sp + 1#4, pc := zextAddr nnn } :=
  if_neg h

/-- Settles O12: SP is not 0, so it does not wrap. -/
theorem returnPopsTheStack : Obligations.ReturnPopsTheStack := by
  intro s h
  exact ⟨_, exec_ret_of_ne h, rfl, by bv_omega, frame_pc_sp s _ _⟩

/-- Settles O15: SP is not 15, so it does not wrap; the push is a slot write, then a write of PC and SP. -/
theorem callPushesTheReturnAddress : Obligations.CallPushesTheReturnAddress := by
  intro nnn s h
  have hslot : (s.setSlot (s.sp + 1#4) s.pc).slot (s.sp + 1#4) = s.pc := by rw [State.slot_setSlot, if_pos rfl]
  have hframe := (frame_setSlot s (s.sp + 1#4) s.pc).trans (frame_pc_sp _ (zextAddr nnn) (s.sp + 1#4))
  refine ⟨_, exec_call_of_ne nnn h, by bv_omega, hslot, toNat_zextAddr nnn, hframe.mono fun p hp => ?_⟩
  simpa [only, or_comm, or_assoc] using hp

/-- Settles O17: the RET pops what the CALL pushed (O12, O15), and SP, raised and lowered by 1, is as before. -/
theorem callThenReturnComesBack : Obligations.CallThenReturnComesBack := by
  intro nnn s t b hs hcall hsp hslot
  obtain ⟨t', ht', hup, hpush, -⟩ := callPushesTheReturnAddress nnn s hs
  cases hcall.symm.trans ht'
  have hb : b.sp.toNat = s.sp.toNat + 1 := by rw [hsp, hup]
  have hne : b.sp ≠ 0#4 := fun e => by simp [e] at hb
  obtain ⟨u, hret, hpop, hdown, hframe⟩ := returnPopsTheStack b hne
  exact ⟨u, hret, hpop.trans (hslot.trans hpush), BitVec.eq_of_toNat_eq (by omega), hframe⟩

/-! ### Skips -/

/-- A taken skip adds 2 to PC, modulo 65536 (R108). -/
theorem toNat_pc_skipIf (s : State) (c : Bool) :
    (s.skipIf c).pc.toNat = if c = true then (s.pc.toNat + 2) % 65536 else s.pc.toNat := by
  cases c <;> rfl

/-- A skip on equal bytes is taken exactly when their numbers are equal (R103, R105). -/
theorem toNat_pc_skipIf_beq (s : State) (a b : Byte) :
    (s.skipIf (a == b)).pc.toNat = if a.toNat = b.toNat then (s.pc.toNat + 2) % 65536 else s.pc.toNat := by
  simp only [toNat_pc_skipIf, beq_iff_eq, BitVec.toNat_inj]

/-- A skip on differing bytes is taken exactly when their numbers differ (R104, R106). -/
theorem toNat_pc_skipIf_bne (s : State) (a b : Byte) :
    (s.skipIf (a != b)).pc.toNat = if a.toNat = b.toNat then s.pc.toNat else (s.pc.toNat + 2) % 65536 := by
  simp only [toNat_pc_skipIf, bne_iff_ne, ne_eq, ite_not, BitVec.toNat_inj]

/-- Settles O18: the condition compares V[X] with NN, and a skip writes PC only. -/
theorem immediateSkips : Obligations.ImmediateSkips :=
  fun _ _ s => ⟨_, _, rfl, rfl, toNat_pc_skipIf_beq s _ _, toNat_pc_skipIf_bne s _ _, frame_skipIf s _,
    frame_skipIf s _⟩

/-- Settles O19: the condition compares V[X] with V[Y], and a skip writes PC only. -/
theorem registerSkips : Obligations.RegisterSkips :=
  fun _ _ s => ⟨_, _, rfl, rfl, toNat_pc_skipIf_beq s _ _, toNat_pc_skipIf_bne s _ _, frame_skipIf s _,
    frame_skipIf s _⟩

end Sys2Proof.Machine

/-! Register load, add immediate and the ALU group: results and flags as numbers (spec/41_load_alu.md). -/

namespace Sys2Proof.Machine

/-! ### Loads and logic: one register written, no flag -/

/-- A register holds what was just written to it (R20). -/
theorem reg_setReg_self (s : State) (x : Nibble) (b : Byte) : (s.setReg x b).reg x = b := by
  rw [State.reg_setReg, if_pos rfl]

/-- Settles O21: each form is one register write. -/
theorem immediateLoadAndAdd : Obligations.ImmediateLoadAndAdd := by
  intro x nn s
  have hadd : ((s.setReg x (s.reg x + nn)).reg x).toNat = ((s.reg x).toNat + nn.toNat) % 256 := by
    rw [reg_setReg_self, BitVec.toNat_add]
  exact ⟨_, _, rfl, rfl, reg_setReg_self s x nn, hadd, frame_setReg s x _, frame_setReg s x _⟩

/-- Settles O22: each form is one register write, and the bits are those of the operation. -/
theorem copyAndLogic : Obligations.CopyAndLogic := by
  intro x y s
  refine ⟨_, _, _, _, rfl, rfl, rfl, rfl, fun j _ => ?_, frame_setReg s x _, frame_setReg s x _,
    frame_setReg s x _, frame_setReg s x _⟩
  simp only [reg_setReg_self, true_and]
  exact ⟨BitVec.getLsbD_or, BitVec.getLsbD_and, BitVec.getLsbD_xor⟩

/-! ### The flags as numbers -/

/-- The carry is bit 8 of the sum (R126). -/
theorem toNat_flagByte_carryOut (a b : Byte) : (flagByte (carryOut a b)).toNat = (a.toNat + b.toNat) / 256 := by
  have ha : a.toNat < 256 := a.isLt
  have hb : b.toNat < 256 := b.isLt
  simp only [toNat_flagByte, carryOut, decide_eq_true_eq]
  split <;> omega

/-- The not-borrow is 1 exactly when the minuend is at least the subtrahend (R127, R129). -/
theorem toNat_flagByte_notBorrow (a b : Byte) :
    (flagByte (notBorrow a b)).toNat = if a.toNat ≥ b.toNat then 1 else 0 := by
  simp only [toNat_flagByte, notBorrow, decide_eq_true_eq, ge_iff_le]

/-- A right shift moves out the lowest bit (R128). -/
theorem toNat_flagByte_shiftedOutRight (a : Byte) : (flagByte (shiftedOutRight a)).toNat = a.toNat % 2 := by
  simp only [toNat_flagByte, shiftedOutRight, BitVec.getLsbD, Nat.testBit_zero, decide_eq_true_eq]
  split <;> omega

/-- A left shift moves out the highest bit (R130). -/
theorem toNat_flagByte_shiftedOutLeft (a : Byte) : (flagByte (shiftedOutLeft a)).toNat = a.toNat / 128 := by
  have ha : a.toNat < 256 := a.isLt
  simp only [toNat_flagByte, shiftedOutLeft, BitVec.getLsbD, Nat.testBit_eq_decide_div_mod_eq, decide_eq_true_eq]
  split <;> omega

/-! ### The results as numbers -/

/-- A difference of bytes is taken modulo 256 (R127, R129). -/
theorem toNat_sub_byte (a b : Byte) : (a - b).toNat = (a.toNat + 256 - b.toNat) % 256 := by
  have hb : b.toNat < 256 := b.isLt
  rw [BitVec.toNat_sub]
  omega

/-- A right shift by one halves (R128). -/
theorem toNat_ushiftRight_one (a : Byte) : (a >>> 1).toNat = a.toNat / 2 := by
  rw [BitVec.toNat_ushiftRight, Nat.shiftRight_one]

/-- A left shift by one doubles, modulo 256 (R130). -/
theorem toNat_shiftLeft_one (a : Byte) : (a <<< 1).toNat = 2 * a.toNat % 256 := by
  rw [BitVec.toNat_shiftLeft, Nat.shiftLeft_eq, pow_one, mul_comm]

/-! ### Arithmetic and shifts: the result, then VF -/

/-- VF ends holding the flag, V[X] the result unless the flag overwrote it, and nothing else is written (R131). -/
theorem setResultFlag_spec (s : State) (x : Nibble) {r : Byte} {c : Bool} {result flag : Nat}
    (hc : (flagByte c).toNat = flag) (hr : r.toNat = result) :
    ((s.setResultFlag x r c).reg 15#4).toNat = flag ∧
      (x ≠ 15#4 → ((s.setResultFlag x r c).reg x).toNat = result) ∧
      Frame (only [.reg x, .reg 15#4]) s (s.setResultFlag x r c) := by
  refine ⟨?_, fun hx => ?_, frame_setResultFlag s x r c⟩
  · rw [State.setResultFlag, reg_vf_setFlag, hc]
  · rw [State.setResultFlag, reg_setFlag_of_ne _ c hx, reg_setReg_self, hr]

/-- Settles O23: the flag is the carry of the old values, written last. -/
theorem addWithCarryOut : Obligations.AddWithCarryOut :=
  fun x _ s => ⟨_, rfl, setResultFlag_spec s x (toNat_flagByte_carryOut _ _) (BitVec.toNat_add _ _)⟩

/-- Settles O24: the flag compares the old values and is written last. -/
theorem subtractNotBorrow : Obligations.SubtractNotBorrow :=
  fun x _ s => ⟨_, rfl, setResultFlag_spec s x (toNat_flagByte_notBorrow _ _) (toNat_sub_byte _ _)⟩

/-- Settles O25: as O24, with the old V[Y] as the minuend. -/
theorem reverseSubtractNotBorrow : Obligations.ReverseSubtractNotBorrow :=
  fun x _ s => ⟨_, rfl, setResultFlag_spec s x (toNat_flagByte_notBorrow _ _) (toNat_sub_byte _ _)⟩

/-- Settles O26: neither shift reads V[Y], and the flag is the bit of the old V[X] that is lost. -/
theorem shiftsByOne : Obligations.ShiftsByOne := by
  intro x _ s
  obtain ⟨hflagR, hresR, hframeR⟩ :=
    setResultFlag_spec s x (toNat_flagByte_shiftedOutRight (s.reg x)) (toNat_ushiftRight_one (s.reg x))
  obtain ⟨hflagL, hresL, hframeL⟩ :=
    setResultFlag_spec s x (toNat_flagByte_shiftedOutLeft (s.reg x)) (toNat_shiftLeft_one (s.reg x))
  exact ⟨_, _, rfl, rfl, hflagR, hflagL, fun hx => ⟨hresR hx, hresL hx⟩, hframeR, hframeL⟩

end Sys2Proof.Machine

/-! The index register, the font lookup, the decimal store and the block moves (spec/42_index_memory.md). -/

namespace Sys2Proof.Machine

/-! ### Block store and load -/

/-- A block move takes at most the 16 registers there are (R144, R145). -/
theorem blockLen_le (x : Nibble) : blockLen x ≤ 16 := x.isLt

/-- A block store leaves I alone (R146). -/
theorem State.storeRange_index (s : State) (n : Nat) : (s.storeRange n).index = s.index := by
  rw [State.storeRange_fields]

/-- The byte at I + k reads as V[k] after the store, the register taken as such (R144). -/
theorem State.storeRange_read_reg (s : State) {n : Nat} {k : Nibble} (hn : n ≤ 16) (hk : k.toNat < n) :
    (s.storeRange n).mem.read (memAddr s.index k.toNat) = s.reg k := by
  rw [s.storeRange_read hn hk, BitVec.ofNat_toNat, BitVec.setWidth_eq]

/-- Settles O31: the bytes at I .. I + X read as the registers, and nothing else is touched. -/
theorem blockStore : Obligations.BlockStore :=
  fun x s => ⟨_, rfl, fun _ hk => s.storeRange_read_reg (blockLen_le x) (Nat.lt_succ_of_le hk),
    frame_storeRange s (blockLen x)⟩

/-- Settles O32: a register up to X is the byte at its offset, and only these are touched. -/
theorem blockLoad : Obligations.BlockLoad :=
  fun x s => ⟨_, rfl, fun k hk => (s.loadRange_reg (blockLen_le x) k).trans (if_pos (Nat.lt_succ_of_le hk)),
    frame_loadRange s (blockLen x)⟩

/-- Settles O33: a register up to X is loaded from the byte it was stored to, since both moves start at one I, and a
register above X is not loaded. -/
theorem blockRoundTrip : Obligations.BlockRoundTrip := by
  intro x s t b hstore hmem hindex
  cases hstore
  rw [State.storeRange_index] at hindex
  refine ⟨_, rfl, fun k hk => ?_, fun k hk => ?_⟩
  · have hlt : k.toNat < blockLen x := Nat.lt_succ_of_le hk
    rw [b.loadRange_reg (blockLen_le x), if_pos hlt, hmem, hindex, s.storeRange_read_reg (blockLen_le x) hlt]
  · have hge : ¬ k.toNat < blockLen x := Nat.not_lt.mpr hk
    rw [b.loadRange_reg (blockLen_le x), if_neg hge]

/-! ### The index register -/

/-- Settles O27: each form writes I only, and zero extension keeps the number added. -/
theorem indexLoadAndAdd : Obligations.IndexLoadAndAdd := by
  intro nnn x s
  have hadd : (s.index + zextByte (s.reg x)).toNat = (s.index.toNat + (s.reg x).toNat) % 65536 := by
    rw [BitVec.toNat_add, toNat_zextByte]
  exact ⟨_, _, rfl, rfl, toNat_zextAddr nnn, hadd, frame_index s _, frame_index s _⟩

/-- The largest font address, 5 * 15, fits in 16 bits (R53, R142). -/
theorem toNat_fontAddr (d : Nibble) : (fontAddr d).toNat = 5 * d.toNat := by
  have hd : d.toNat < 16 := d.isLt
  simp only [fontAddr, Config.fontBase, Config.fontSpriteLen, BitVec.toNat_ofNat]
  omega

/-- Settles O28: the register value is in range, so LD F takes it as the digit. -/
theorem fontAddressOfDigit : Obligations.FontAddressOfDigit := by
  intro x s hx
  have hdigit : ((s.reg x).setWidth 4).toNat = (s.reg x).toNat := by
    rw [BitVec.toNat_setWidth]; omega
  exact ⟨_, exec_ldF_of_some (nibbleOperand_of_le hx), by rw [toNat_fontAddr, hdigit], frame_index s _⟩

/-! ### The decimal store -/

theorem toNat_hundreds (b : Byte) : (hundreds b).toNat = b.toNat / 100 := rfl

theorem toNat_tens (b : Byte) : (tens b).toNat = b.toNat / 10 % 10 := rfl

theorem toNat_ones (b : Byte) : (ones b).toNat = b.toNat % 10 := rfl

/-- A byte store is seen at its own offset (R54). -/
theorem State.storeByte_read_self (s : State) (base : Word) (k : Nat) (b : Byte) :
    (s.storeByte base k b).mem.read (memAddr base k) = b := by
  rw [State.storeByte_mem, Memory.read_write, if_pos rfl]

/-- A byte store is not seen at another offset from the same base (R54, R60). -/
theorem State.storeByte_read_of_ne (s : State) (base : Word) {j k : Nat} (b : Byte) (hj : j < 4096) (hk : k < 4096)
    (h : j ≠ k) : (s.storeByte base k b).mem.read (memAddr base j) = s.mem.read (memAddr base j) := by
  rw [State.storeByte_mem, Memory.read_write, if_neg fun e => h (memAddr_inj hj hk e)]

/-- A byte store inside a sequence touches a byte of the sequence only (R51). -/
theorem frame_storeByte_bytePieces (s : State) (base : Word) {k n : Nat} (b : Byte) (h : k < n) :
    Frame (only (bytePieces base n)) s (s.storeByte base k b) :=
  (frame_storeByte s base k b).mono (only_bytePieces h)

/-- Three bytes stored at a base, in ascending order: what LD B does with the digits (R143). -/
def State.storeThree (s : State) (base : Word) (b0 b1 b2 : Byte) : State :=
  ((s.storeByte base 0 b0).storeByte base 1 b1).storeByte base 2 b2

/-- LD B stores the three digits at I (R143). -/
theorem exec_ldB (x : Nibble) (s : State) :
    exec (.ldB x) s = .next (s.storeThree s.index (hundreds (s.reg x)) (tens (s.reg x)) (ones (s.reg x))) := rfl

/-- Each of the three bytes stands at its offset: a later store goes to another address (R143, R60). -/
theorem State.storeThree_read (s : State) (base : Word) (b0 b1 b2 : Byte) :
    (s.storeThree base b0 b1 b2).mem.read (memAddr base 0) = b0 ∧
      (s.storeThree base b0 b1 b2).mem.read (memAddr base 1) = b1 ∧
      (s.storeThree base b0 b1 b2).mem.read (memAddr base 2) = b2 := by
  refine ⟨?_, ?_, State.storeByte_read_self _ _ _ _⟩
  · rw [State.storeThree, State.storeByte_read_of_ne, State.storeByte_read_of_ne, State.storeByte_read_self] <;> decide
  · rw [State.storeThree, State.storeByte_read_of_ne, State.storeByte_read_self] <;> decide

theorem frame_storeThree (s : State) (base : Word) (b0 b1 b2 : Byte) :
    Frame (only (bytePieces base 3)) s (s.storeThree base b0 b1 b2) :=
  ((frame_storeByte_bytePieces s base b0 (by decide)).trans_same
    (frame_storeByte_bytePieces _ base b1 (by decide))).trans_same
    (frame_storeByte_bytePieces _ base b2 (by decide))

/-- Settles O30: the three bytes read back are the digits, and the digits as numbers are those of V[X]. -/
theorem decimalStore : Obligations.DecimalStore := by
  intro x s
  obtain ⟨h0, h1, h2⟩ := s.storeThree_read s.index (hundreds (s.reg x)) (tens (s.reg x)) (ones (s.reg x))
  exact ⟨_, exec_ldB x s, (congrArg BitVec.toNat h0).trans (toNat_hundreds _),
    (congrArg BitVec.toNat h1).trans (toNat_tens _), (congrArg BitVec.toNat h2).trans (toNat_ones _),
    frame_storeThree s s.index _ _ _⟩

end Sys2Proof.Machine

/-! Clear screen and sprite draw: which cells change, the collision flag, and the event (spec/43_display.md). -/

namespace Sys2Proof.Machine

/-! ### The flag and the event say whether a condition holds -/

theorem flagByte_eq_one_iff (c : Bool) : flagByte c = 1#8 ↔ c = true := by cases c <;> simp [flagByte]

/-- A flag that stands for P is 1 if P holds and 0 otherwise (R21). -/
theorem flagByte_spec {c : Bool} {P : Prop} (h : c = true ↔ P) :
    (P → flagByte c = 1#8) ∧ (¬ P → flagByte c = 0#8) :=
  ⟨fun hp => if_pos (h.mpr hp), fun hn => if_neg fun hc => hn (h.mp hc)⟩

/-- An emission on a condition that stands for P records one event if P holds and none otherwise (R164). -/
theorem trace_emitIf_spec (s : State) {c : Bool} {P : Prop} (h : c = true ↔ P) :
    (P → (s.emitIf c).trace = .displayChanged :: s.trace) ∧ (¬ P → (s.emitIf c).trace = s.trace) := by
  rw [State.emitIf_trace]
  exact ⟨fun hp => if_pos (h.mpr hp), fun hn => if_neg fun hc => hn (h.mp hc)⟩

/-! ### Clear screen -/

/-- CLS blanks the screen and emits the event if some cell was lit (R160). -/
theorem exec_cls (s : State) :
    exec .cls s = .next ({ s with fb := Framebuffer.blank }.emitIf s.fb.anyLit) := rfl

/-- Blanking changes a framebuffer exactly when some cell was lit (R160). -/
theorem Framebuffer.anyLit_iff_blank_ne (f : Framebuffer) : f.anyLit = true ↔ Framebuffer.blank ≠ f := by
  rw [Framebuffer.anyLit_iff]
  constructor
  · rintro ⟨x, y, hlit⟩ rfl
    simp at hlit
  · intro hne
    by_contra hdark
    simp only [not_exists, Bool.not_eq_true] at hdark
    exact hne (Framebuffer.ext_cell fun x y => by rw [Framebuffer.cell_blank, hdark])

theorem frame_cls (s : State) :
    Frame (onlyAndCells [.trace]) s ({ s with fb := Framebuffer.blank }.emitIf s.fb.anyLit) :=
  ((frame_fb s _).trans (frame_emitIf _ _)).mono fun p hp => by
    simpa [only, onlyAndCells, or_comm] using hp

/-! ### What a part of the DRW loop does to the cells, seen from its two framebuffers -/

section
variable {P : Fin 64 → Fin 32 → Prop} {b b' : Blit} (h : BlitSpec P b b')
include h

/-- The cells addressed that end lit are the cells that turned from dark to lit (R161). -/
theorem BlitSpec.addressed_lit_iff (x : Fin 64) (y : Fin 32) :
    P x y ∧ b'.fb.cell x y = true ↔ b.fb.cell x y = false ∧ b'.fb.cell x y = true := by
  refine and_congr_left fun hlit => ⟨fun hp => ?_, fun hdark => ?_⟩
  · rwa [h.hit x y hp, Bool.not_eq_true'] at hlit
  · by_contra hp
    rw [h.miss x y hp, hdark] at hlit
    cases hlit

/-- Some cell is addressed exactly when the framebuffer changed: a toggle changes its cell (R163). -/
theorem BlitSpec.addressed_iff_fb_ne : (∃ x y, P x y) ↔ b'.fb ≠ b.fb := by
  constructor
  · rintro ⟨x, y, hp⟩ heq
    have htoggle := h.hit x y hp
    simp [heq] at htoggle
  · intro hne
    by_contra hnone
    exact hne (Framebuffer.ext_cell fun x y => h.miss x y fun hp => hnone ⟨x, y, hp⟩)

/-- A second part that addresses the same cells from where the first ended restores every cell (R163). -/
theorem BlitSpec.cell_twice {c c' : Blit} (k : BlitSpec P c c') (hfb : c.fb = b'.fb) (x : Fin 64) (y : Fin 32) :
    c'.fb.cell x y = b.fb.cell x y := by
  by_cases hp : P x y
  · rw [k.hit x y hp, hfb, h.hit x y hp, Bool.not_not]
  · rw [k.miss x y hp, hfb, h.miss x y hp]

end

/-! ### Sprite draw -/

/-- A sprite's column offset c reads bit 7 - c of the row as a number (R162). -/
theorem spriteBit_iff (row : Byte) (c : Nat) : spriteBit row c = true ↔ row.toNat / 2 ^ (7 - c) % 2 = 1 := by
  rw [spriteBit, BitVec.getLsbD, Nat.testBit_eq_decide_div_mod_eq, decide_eq_true_eq]

/-- The cells the loop addresses, written as numbers (R162). -/
theorem spriteCell_iff_spriteLights (s : State) (x y n : Nibble) (cx : Fin 64) (cy : Fin 32) :
    SpriteCell s.mem s.index (s.reg x) (s.reg y) n.toNat cx cy ↔ spriteLights s x y n cx cy := by
  simp only [SpriteCell, spriteLights, spriteBit_iff, Fin.ext_iff]
  rfl

/-- The DRW loop toggles the cells the sprite's set bits address (R161, R162). -/
theorem drawSprite_spriteLights (s : State) (x y n : Nibble) :
    BlitSpec (spriteLights s x y n) ⟨s.fb, false, false⟩ (drawSprite s x y n) :=
  (drawSprite_spec s x y n).congr (spriteCell_iff_spriteLights s x y n)

/-- The cells addressed depend on memory, I and the two origin registers only (R161). -/
theorem spriteLights_congr {s t : State} {x y : Nibble} (n : Nibble) (hmem : t.mem = s.mem)
    (hindex : t.index = s.index) (hx : t.reg x = s.reg x) (hy : t.reg y = s.reg y) :
    spriteLights t x y n = spriteLights s x y n := by
  unfold spriteLights
  rw [hmem, hindex, hx, hy]

/-- The state after DRW Vx, Vy, N (R161). -/
def State.afterDrw (s : State) (x y n : Nibble) : State :=
  ({ s with fb := (drawSprite s x y n).fb }.setFlag (drawSprite s x y n).collision).emitIf (drawSprite s x y n).changed

section
variable (s : State) (x y n : Nibble)

theorem exec_drw : exec (.drw x y n) s = .next (s.afterDrw x y n) := rfl

@[simp] theorem State.afterDrw_fb : (s.afterDrw x y n).fb = (drawSprite s x y n).fb := by simp [State.afterDrw]

@[simp] theorem State.afterDrw_mem : (s.afterDrw x y n).mem = s.mem := by simp [State.afterDrw]

@[simp] theorem State.afterDrw_index : (s.afterDrw x y n).index = s.index := by simp [State.afterDrw]

/-- VF ends holding the collision (R161). -/
@[simp] theorem State.afterDrw_vf : (s.afterDrw x y n).reg 15#4 = flagByte (drawSprite s x y n).collision :=
  (State.reg_congr (State.emitIf_v _ _) _).trans (reg_vf_setFlag _ _)

/-- The collision is an addressed cell that was lit (R161). -/
theorem drawSprite_collision_iff : (drawSprite s x y n).collision = true ↔
    ∃ cx cy, spriteLights s x y n cx cy ∧ s.fb.cell cx cy = true := by
  simpa using (drawSprite_spriteLights s x y n).collision

/-- The loop reports a change exactly when some cell is addressed (R163). -/
theorem drawSprite_changed_iff : (drawSprite s x y n).changed = true ↔ ∃ cx cy, spriteLights s x y n cx cy := by
  simpa using (drawSprite_spriteLights s x y n).changed

/-- A draw records one event if the loop's change stands for a condition that holds, and none otherwise (R164). -/
theorem trace_afterDrw_spec {P : Prop} (h : (drawSprite s x y n).changed = true ↔ P) :
    (P → (s.afterDrw x y n).trace = .displayChanged :: s.trace) ∧ (¬ P → (s.afterDrw x y n).trace = s.trace) :=
  trace_emitIf_spec _ h

theorem frame_afterDrw : Frame (onlyAndCells [.reg 15#4, .trace]) s (s.afterDrw x y n) :=
  (((frame_fb s _).trans (frame_setFlag _ _)).trans (frame_emitIf _ _)).mono fun p hp => by
    simpa [only, onlyAndCells, or_comm, or_left_comm, or_assoc] using hp

end

/-! ### The instructions that leave the display alone -/

/-- An instruction other than CLS and DRW changes no cell and emits no event (R165). -/
theorem exec_display_cases {i : Instr} {s t : State} (h : exec i s = .next t) :
    i = .cls ∨ (∃ x y n, i = .drw x y n) ∨ (t.fb = s.fb ∧ t.trace = s.trace) := by
  cases i with
  | cls => exact .inl rfl
  | drw x y n => exact .inr (.inl ⟨x, y, n, rfl⟩)
  | ret => obtain rfl | rfl := exec_ret_cases h <;> exact .inr (.inr ⟨rfl, rfl⟩)
  | call nnn => obtain rfl | ⟨-, rfl⟩ := exec_call_cases h <;> exact .inr (.inr ⟨rfl, rfl⟩)
  | ldF x => obtain rfl | ⟨d, rfl⟩ := exec_ldF_cases h <;> exact .inr (.inr ⟨rfl, rfl⟩)
  | skp x => obtain rfl | ⟨c, rfl⟩ := exec_skp_cases h <;> exact .inr (.inr (by simp))
  | sknp x => obtain rfl | ⟨c, rfl⟩ := exec_sknp_cases h <;> exact .inr (.inr (by simp))
  | storeRegs x => cases h; rw [State.storeRange_fields]; exact .inr (.inr ⟨rfl, rfl⟩)
  | loadRegs x => cases h; rw [State.loadRange_fields]; exact .inr (.inr ⟨rfl, rfl⟩)
  | _ => cases h; exact .inr (.inr (by simp))

end Sys2Proof.Machine

namespace Sys2Proof
open Sys2Proof.Machine

/-- Settles O36: the loop toggles the addressed cells, and its two variables are the flag and the event's condition. -/
theorem drawSprite : Obligations.DrawSprite := by
  intro x y n s
  obtain ⟨hit, miss, -, -⟩ := drawSprite_spriteLights s x y n
  obtain ⟨hone, hzero⟩ := flagByte_spec (drawSprite_collision_iff s x y n)
  obtain ⟨hevent, hquiet⟩ := trace_afterDrw_spec s x y n (drawSprite_changed_iff s x y n)
  rw [← State.afterDrw_vf] at hone hzero
  exact ⟨_, exec_drw s x y n, by simpa using hit, by simpa using miss, hone, hzero, hevent, hquiet,
    frame_afterDrw s x y n⟩

/-- Settles O37: the second draw addresses the same cells, and those it finds lit are the ones the first draw lit. -/
theorem drawTwiceRestores : Obligations.DrawTwiceRestores := by
  intro x y n s t u ht hx hy hu
  cases ht.symm.trans (exec_drw s x y n)
  cases hu.symm.trans (exec_drw _ x y n)
  have hfirst := drawSprite_spriteLights s x y n
  have hsecond := drawSprite_spriteLights (s.afterDrw x y n) x y n
  rw [spriteLights_congr n (s.afterDrw_mem x y n) (s.afterDrw_index x y n) hx hy] at hsecond
  refine ⟨fun cx cy => ?_, ?_⟩
  · rw [State.afterDrw_fb]
    exact hfirst.cell_twice hsecond (s.afterDrw_fb x y n) cx cy
  · rw [State.afterDrw_vf, flagByte_eq_one_iff, hsecond.collision]
    simp [hfirst.addressed_lit_iff]

/-- Settles O38: CLS and DRW emit on a condition that says whether a cell changed, and no other instruction touches the
display. -/
theorem displayChangedIffCellsChanged : Obligations.DisplayChangedIffCellsChanged := by
  intro i s t h
  obtain rfl | ⟨x, y, n, rfl⟩ | ⟨hfb, htrace⟩ := exec_display_cases h
  · cases h.symm.trans (exec_cls s)
    obtain ⟨hevent, hquiet⟩ := trace_emitIf_spec { s with fb := Framebuffer.blank } s.fb.anyLit_iff_blank_ne
    rw [State.emitIf_fb]
    exact ⟨fun hne => ⟨hevent hne, .inl rfl⟩, fun heq => hquiet (not_not.mpr heq)⟩
  · cases h.symm.trans (exec_drw s x y n)
    have hchanged := (drawSprite_changed_iff s x y n).trans (drawSprite_spriteLights s x y n).addressed_iff_fb_ne
    obtain ⟨hevent, hquiet⟩ := trace_afterDrw_spec s x y n hchanged
    rw [State.afterDrw_fb]
    exact ⟨fun hne => ⟨hevent hne, .inr ⟨x, y, n, rfl⟩⟩, fun heq => hquiet (not_not.mpr heq)⟩
  · exact ⟨fun hne => absurd hfb hne, fun _ => htrace⟩

/-- Settles O35: every cell reads false after CLS, and the event's condition is that some cell was lit. -/
theorem clearScreen : Obligations.ClearScreen := by
  intro s
  obtain ⟨hevent, hquiet⟩ := trace_emitIf_spec { s with fb := Framebuffer.blank } s.fb.anyLit_iff
  refine ⟨_, exec_cls s, fun cx cy => ?_, hevent, fun hdark => hquiet ?_, frame_cls s⟩
  · rw [State.emitIf_fb, Framebuffer.cell_blank]
  · rintro ⟨cx, cy, hlit⟩
    simp [hdark] at hlit

end Sys2Proof

/-! The keypad skips, the key wait, the timers and the masked random byte (spec/44_keypad_timer_random.md). -/

namespace Sys2Proof.Machine

/-- A step through two frames touches the pieces of either list. -/
theorem Frame.trans_only {ps qs : List Piece} {s t u : State} (h : Frame (only ps) s t) (k : Frame (only qs) t u) :
    Frame (only (ps ++ qs)) s u :=
  (h.trans k).mono fun _ => List.mem_append.mpr

/-! ### Keypad skips -/

/-- A register value that is a key code is taken as that key (R188). -/
theorem nibbleOperand_of_toNat_eq {b : Byte} {k : Nibble} (h : b.toNat = k.toNat) : nibbleOperand b = some k := by
  have hk : k.toNat < 16 := k.isLt
  have hcode : b.setWidth 4 = k :=
    BitVec.eq_of_toNat_eq (by rw [BitVec.toNat_setWidth, h, Nat.mod_eq_of_lt hk])
  rw [nibbleOperand_of_le (by omega), hcode]

/-- A skip on a level being false leaves PC when the level is true (R181). -/
theorem toNat_pc_skipIf_not (s : State) (c : Bool) :
    (s.skipIf (!c)).pc.toNat = if c = true then s.pc.toNat else (s.pc.toNat + 2) % 65536 := by
  cases c <;> rfl

/-- Settles O39: V[X] is a key code, so both forms test that key's level, and a skip writes PC only. -/
theorem keySkips : Obligations.KeySkips := by
  intro x k s hx
  have hk := nibbleOperand_of_toNat_eq hx
  exact ⟨_, _, exec_skp_of_some hk, exec_sknp_of_some hk, toNat_pc_skipIf s _, toNat_pc_skipIf_not s _,
    frame_skipIf s _, frame_skipIf s _⟩

/-! ### The key wait -/

/-- Settles O40: the issue step writes RUN only, and reads no key. -/
theorem keyWaitBegins : Obligations.KeyWaitBegins :=
  fun x s => ⟨_, rfl, rfl, frame_run s (.waitKey x)⟩

/-- Zero extension keeps the number of a key code (R183). -/
theorem toNat_zextKey (k : Nibble) : (zextKey k).toNat = k.toNat :=
  BitVec.toNat_setWidth_of_le (by decide)

/-- A KeyPress at the head of the schedule is taken off it and delivered (R41, R219). -/
theorem step_of_keyPress {s : State} {k : Nibble} {rest : List Move} (h : s.schedule = .keyPress k :: rest) :
    step s = .next ({ s with schedule := rest }.keyPress k) :=
  step_of_head h

/-- Settles O41: the press is taken off the schedule, then either completes the one wait there is or does nothing. -/
theorem keyPressCompletesTheWait : Obligations.KeyPressCompletesTheWait := by
  intro k s rest hs
  have hstep := step_of_keyPress hs
  obtain ⟨x, hrun, he⟩ | ⟨hrun, he⟩ := keyPress_cases { s with schedule := rest } k
  · rw [he] at hstep
    refine ⟨_, hstep, rfl, fun y hy => ?_, fun hno => absurd hrun (hno x)⟩
    cases hrun.symm.trans hy
    have hreg : ((s.setReg x (zextKey k)).reg x).toNat = k.toNat := by rw [reg_setReg_self, toNat_zextKey]
    exact ⟨hreg, rfl, ((frame_setReg s x _).trans_only (frame_run _ _)).trans_only (frame_schedule _ rest)⟩
  · rw [he] at hstep
    exact ⟨_, hstep, rfl, fun y hy => absurd hy (hrun y), fun _ => frame_schedule s rest⟩

/-! ### Timers -/

/-- Settles O42: each form copies one byte, between V[X] and a timer. -/
theorem timerAccess : Obligations.TimerAccess :=
  fun x s => ⟨_, _, _, rfl, rfl, rfl, reg_setReg_self s x _, rfl, rfl, frame_setReg s x _, frame_dt s _,
    frame_st s _⟩

/-! ### Masked random -/

/-- A masked byte is at most its mask (R187). -/
theorem toNat_and_le_right (r nn : Byte) : (r &&& nn).toNat ≤ nn.toNat := by
  rw [BitVec.toNat_and]
  exact Nat.and_le_right

/-- Settles O43: V[X] is the drawn byte masked with NN, whatever byte is drawn. -/
theorem maskedRandom : Obligations.MaskedRandom := by
  intro x nn s
  have hreg := reg_setReg_self s x (Config.randomByte s.draws &&& nn)
  exact ⟨_, rfl, fun j => (congrArg (·.getLsbD j) hreg).trans BitVec.getLsbD_and,
    (congrArg BitVec.toNat hreg).trans_le (toNat_and_le_right _ _), rfl,
    (frame_setReg s x _).trans_only (frame_draws _ _)⟩

end Sys2Proof.Machine

/-! The faults, the timer engine's tick, the host's moves, and what Halted allows (spec/60_exceptions.md). -/

namespace Sys2Proof.Machine

/-! ### How a cycle ends in a fault -/

/-- An illegal word raises DecodeFailure with PC advanced (R201). -/
theorem cycle_of_illegal {s : State} {g : IllegalSet} (h : decodeWord (fetchWord s.mem s.pc) = .illegal g) :
    cycle s = .next (s.advance.raise .decodeFailure (fetchWord s.mem s.pc)) := by
  rw [cycle, h]

/-- A running engine's cycle that ends in a fault is a raise of that fault on the state with PC advanced, with the word
fetched, which can raise it (R206, R207). -/
theorem cycle_ends_in_fault {s t : State} {k : FaultKind} (h : cycle s = .next t) (hr : s.run = .running)
    (ht : t.run = .halted (.fault k)) :
    t = s.advance.raise k (fetchWord s.mem s.pc) ∧ k.raisedBy (decodeWord (fetchWord s.mem s.pc)) = true := by
  obtain ⟨i, hi, he⟩ | ⟨g, hg, rfl⟩ := cycle_cases h
  · obtain ⟨j, rfl, hj, -⟩ | ⟨x, -, rfl⟩ | ⟨hrun, -⟩ := exec_run_cases he
    · cases ht
      rw [encodeOfDecode _ i hi, hi]
      exact ⟨rfl, hj⟩
    · cases ht
    · rw [hrun, State.advance_run, hr] at ht
      cases ht
  · cases ht
    rw [hg]
    exact ⟨rfl, rfl⟩

/-- A raise on the engine's turn touches PC, by the advance, RUN and FAULT, and the model's schedule (R206). -/
theorem frame_raise_advance (s : State) (rest : List Move) (k : FaultKind) (op : Word) :
    Frame (only [.pc, .run, .fault, .schedule]) s ({ s with schedule := rest }.advance.raise k op) :=
  ((frame_advance s).trans_only (frame_raise _ k op)).trans_only (frame_schedule _ rest)

/-- Settles O11: a fault is a raise of it with the word fetched, on the state with PC advanced. -/
theorem faultsArePrecise : Obligations.FaultsArePrecise := by
  intro s t k ht hs hk
  rw [step_of_engineTurn ht] at hs
  obtain ⟨rfl, hraised⟩ := cycle_ends_in_fault hs ht.1 hk
  exact ⟨raise_advance_fault _ _ _, rfl, hraised, frame_raise_advance s _ k _⟩

/-- Settles O8: the step is a cycle, and the cycle raises DecodeFailure. -/
theorem illegalWordRaisesDecodeFailure : Obligations.IllegalWordRaisesDecodeFailure := by
  intro s g ht hg
  exact ⟨_, (step_of_engineTurn ht).trans (cycle_of_illegal hg), rfl, raise_advance_fault _ _ _, rfl, rfl,
    frame_raise_advance s _ _ _⟩

/-! ### The instructions that fault -/

/-- Settles O10: the first of the two runs that `exec_withStRunFault` compares, case by case, is the run from s. -/
theorem everyInstructionAnswersNext : Obligations.EveryInstructionAnswersNext := by
  intro i s
  obtain ⟨t, -, -, -, ht, -⟩ := exec_withStRunFault s s.st s.run s.fault i
  exact ⟨t, ht⟩

/-- RET with no address on the stack raises StackUnderflow (R203). -/
theorem exec_ret_of_eq {s : State} (h : s.sp = 0#4) : exec .ret s = .next (s.raise .stackUnderflow 0x00EE#16) :=
  if_pos h

/-- Settles O13: a raise writes RUN and FAULT only. -/
theorem returnOnEmptyStackFaults : Obligations.ReturnOnEmptyStackFaults :=
  fun s h => ⟨_, exec_ret_of_eq h, rfl, rfl, frame_raise s _ _⟩

/-- CALL at 15 levels raises StackOverflow (R202). -/
theorem exec_call_of_eq (nnn : Addr) {s : State} (h : s.sp = 15#4) :
    exec (.call nnn) s = .next (s.raise .stackOverflow (encode (.call nnn))) := if_pos h

/-- Settles O16: a raise writes RUN and FAULT only, and the word recorded is the CALL's, of format ADDR. -/
theorem callOnFullStackFaults : Obligations.CallOnFullStackFaults :=
  fun nnn s h => ⟨_, _, exec_call_of_eq nnn h, rfl, rfl, toNat_fmtAddr 2#4 nnn, frame_raise s _ _⟩

/-- A REG_IMM word as its row's pattern plus the X field (R72, R75). -/
theorem toNat_fmtRegImm_pattern (t x : Nibble) (nn : Byte) :
    (fmtRegImm t x nn).toNat = t.toNat * 4096 + nn.toNat + 256 * x.toNat := by
  rw [toNat_fmtRegImm]; omega

/-- Settles O29: V[X] is out of range, so each of the three raises OperandRange with its own word, of format REG_IMM. -/
theorem operandRangeFaults : Obligations.OperandRangeFaults := by
  intro x s hx p hp
  have hnone := nibbleOperand_of_lt hx
  simp only [List.mem_cons, List.not_mem_nil, or_false] at hp
  obtain rfl | rfl | rfl := hp
  · exact ⟨_, _, exec_ldF_of_none hnone, rfl, rfl, toNat_fmtRegImm_pattern 15#4 x 0x29#8, frame_raise s _ _⟩
  · exact ⟨_, _, exec_skp_of_none hnone, rfl, rfl, toNat_fmtRegImm_pattern 14#4 x 0x9E#8, frame_raise s _ _⟩
  · exact ⟨_, _, exec_sknp_of_none hnone, rfl, rfl, toNat_fmtRegImm_pattern 14#4 x 0xA1#8, frame_raise s _ _⟩

/-! ### The codes of the stop causes -/

/-- The stop cause a code of R200 stands for (D23). -/
def StopCause.ofCode : Nat → StopCause
  | 1 => .fault .decodeFailure
  | 2 => .fault .stackOverflow
  | 3 => .fault .stackUnderflow
  | 4 => .fault .operandRange
  | _ => .cancelled

theorem StopCause.ofCode_code : Function.LeftInverse StopCause.ofCode StopCause.code
  | .fault .decodeFailure | .fault .stackOverflow | .fault .stackUnderflow | .fault .operandRange | .cancelled => rfl

/-- The faults have the codes 1 to 4 (R200). -/
theorem FaultKind.code_mem (k : FaultKind) : 1 ≤ k.code ∧ k.code ≤ 4 := by
  cases k <;> simp [FaultKind.code]

/-- Settles O59: a code gives its stop cause back, the faults lie below 5, and Cancel has 6. -/
theorem causeCodesAreDistinct : Obligations.CauseCodesAreDistinct := by
  refine ⟨fun _ _ h => StopCause.ofCode_code.injective h, rfl, fun c => ?_⟩
  cases c with
  | fault k =>
    have hk := k.code_mem
    simp only [StopCause.code]
    omega
  | cancelled => decide

/-! ### The tick and the host's moves -/

/-- Settles O44: a tick reads no run state and counts both timers down. -/
theorem tickCountsDown : Obligations.TickCountsDown :=
  fun s rest h => ⟨_, step_of_head h, rfl, toNat_countDown s.dt, toNat_countDown s.st,
    (frame_tick s).trans_only (frame_schedule _ rest)⟩

/-- Settles O46: a key write reads no run state and sets one flag. -/
theorem hostSetsOneKey : Obligations.HostSetsOneKey := by
  intro k d s rest h
  have hkey : (s.setKey k d).key k = d := by rw [State.key_setKey, if_pos rfl]
  exact ⟨_, step_of_head h, rfl, hkey, (frame_setKey s k d).trans_only (frame_schedule _ rest)⟩

/-- Settles O47: a Cancel either writes RUN, in Running and WaitKey, or does nothing, in Halted. -/
theorem cancelHalts : Obligations.CancelHalts := by
  intro s rest h
  have hstep : step s = .next { s with schedule := rest }.cancel := step_of_head h
  obtain ⟨hrun, he⟩ | ⟨c, hrun, he⟩ := cancel_cases { s with schedule := rest }
  · rw [he] at hstep
    exact ⟨_, hstep, rfl, fun _ => ⟨rfl, (frame_run s _).trans_only (frame_schedule _ rest)⟩,
      fun c hc => absurd hc (hrun c)⟩
  · rw [he] at hstep
    exact ⟨_, hstep, rfl, fun hno => absurd hrun (hno c), fun _ _ => frame_schedule s rest⟩

/-! ### What a step other than a reset can do -/

/-- A step other than a reset is a cycle on the engine's turn, a tick, or one of the host's three other moves, made with
the schedule that is left (R40, R41). -/
theorem step_move_cases {s t : State} (h : step s = .next t) (hno : ∀ rom rest, s.schedule ≠ .reset rom :: rest) :
    ∃ rest, (engineTurn s ∧ cycle { s with schedule := rest } = .next t) ∨ t = { s with schedule := rest }.tick ∨
      (∃ k d, t = { s with schedule := rest }.setKey k d) ∨ (∃ k, t = { s with schedule := rest }.keyPress k) ∨
      t = { s with schedule := rest }.cancel := by
  obtain ⟨hs, he⟩ | ⟨m, rest, hs, hm⟩ := step_cases h
  · obtain ⟨hrun, -⟩ := engineMove_next he
    have hturn : engineTurn s := ⟨hrun, .inl hs⟩
    exact ⟨s.schedule.tail, .inl ⟨hturn, (step_of_engineTurn hturn).symm.trans h⟩⟩
  · obtain ⟨rfl, hrun, hc⟩ | ⟨-, ht⟩ | ⟨k, d, -, ht⟩ | ⟨k, -, ht⟩ | ⟨-, ht⟩ | ⟨rom, rfl, -⟩ := applyMove_cases hm
    · exact ⟨rest, .inl ⟨⟨hrun, .inr ⟨rest, hs⟩⟩, hc⟩⟩
    · exact ⟨rest, .inr (.inl ht)⟩
    · exact ⟨rest, .inr (.inr (.inl ⟨k, d, ht⟩))⟩
    · exact ⟨rest, .inr (.inr (.inr (.inl ⟨k, ht⟩)))⟩
    · exact ⟨rest, .inr (.inr (.inr (.inr ht)))⟩
    · exact absurd hs (hno rom rest)

/-! ### Timers only fall unless set -/

/-- A cycle changes DT only by LD DT, Vx and ST only by LD ST, Vx (R26, R27). -/
theorem cycle_timers {s t : State} (h : cycle s = .next t) :
    (t.dt = s.dt ∨ ∃ x, decodeWord (fetchWord s.mem s.pc) = .instr (.ldDtVx x)) ∧
      (t.st = s.st ∨ ∃ x, decodeWord (fetchWord s.mem s.pc) = .instr (.ldStVx x)) := by
  obtain ⟨i, hi, he⟩ | ⟨g, -, rfl⟩ := cycle_cases h
  · obtain ⟨-, -, -, -, -, hdt, hst, -⟩ := writeRights i _ t he
    exact ⟨hdt.imp_right fun ⟨x, e⟩ => ⟨x, e ▸ hi⟩, hst.imp_right fun ⟨x, e⟩ => ⟨x, e ▸ hi⟩⟩
  · exact ⟨.inl rfl, .inl rfl⟩

/-- A KeyPress leaves both timers alone (R183). -/
theorem keyPress_timers (s : State) (k : Nibble) : (s.keyPress k).dt = s.dt ∧ (s.keyPress k).st = s.st := by
  obtain ⟨x, -, e⟩ | ⟨-, e⟩ := keyPress_cases s k <;> rw [e] <;> exact ⟨rfl, rfl⟩

/-- A Cancel leaves both timers alone (R211). -/
theorem cancel_timers (s : State) : s.cancel.dt = s.dt ∧ s.cancel.st = s.st := by
  obtain ⟨-, e⟩ | ⟨c, -, e⟩ := cancel_cases s <;> rw [e] <;> exact ⟨rfl, rfl⟩

/-- What a step other than a reset does to the timers: it counts both down, or each changes only by the instruction that
sets it (R214). -/
theorem step_timers {s t : State} (h : step s = .next t) (hno : ∀ rom rest, s.schedule ≠ .reset rom :: rest) :
    (t.dt = countDown s.dt ∧ t.st = countDown s.st) ∨
      ((t.dt = s.dt ∨ ∃ x, engineTurn s ∧ decodeWord (fetchWord s.mem s.pc) = .instr (.ldDtVx x)) ∧
        (t.st = s.st ∨ ∃ x, engineTurn s ∧ decodeWord (fetchWord s.mem s.pc) = .instr (.ldStVx x))) := by
  obtain ⟨rest, ⟨hturn, hc⟩ | rfl | ⟨k, d, rfl⟩ | ⟨k, rfl⟩ | rfl⟩ := step_move_cases h hno
  · obtain ⟨hdt, hst⟩ := cycle_timers hc
    exact .inr ⟨hdt.imp_right fun ⟨x, hx⟩ => ⟨x, hturn, hx⟩, hst.imp_right fun ⟨x, hx⟩ => ⟨x, hturn, hx⟩⟩
  · exact .inl ⟨rfl, rfl⟩
  · exact .inr ⟨.inl rfl, .inl rfl⟩
  · exact .inr ((keyPress_timers _ k).imp .inl .inl)
  · exact .inr ((cancel_timers _).imp .inl .inl)

/-- A count down is a fall by at most 1 (R213). -/
theorem countDown_falls (b : Byte) : (countDown b).toNat ≤ b.toNat ∧ b.toNat ≤ (countDown b).toNat + 1 := by
  rw [toNat_countDown]; omega

/-- A timer left alone has not risen, and has fallen by at most 1. -/
theorem falls_of_eq {a b : Byte} (h : a = b) : a.toNat ≤ b.toNat ∧ b.toNat ≤ a.toNat + 1 := by
  rw [h]; omega

/-- Settles O45: a step counts both timers down, or leaves each alone that no instruction sets. -/
theorem timersOnlyFallUnlessSet : Obligations.TimersOnlyFallUnlessSet := by
  intro s t h hno
  obtain ⟨hdt, hst⟩ | ⟨hdt, hst⟩ := step_timers h hno
  · rw [hdt, hst]
    exact ⟨.inl (countDown_falls s.dt), .inl (countDown_falls s.st)⟩
  · exact ⟨hdt.imp_left falls_of_eq, hst.imp_left falls_of_eq⟩

/-! ### Halted -/

/-- A KeyPress is dropped in Halted (R219, D21). -/
theorem keyPress_of_halted {s : State} {c : StopCause} (h : s.run = .halted c) (k : Nibble) : s.keyPress k = s := by
  simp only [State.keyPress, h]

/-- A Cancel has no effect in Halted (R208, R211). -/
theorem cancel_of_halted {s : State} {c : StopCause} (h : s.run = .halted c) : s.cancel = s := by
  simp only [State.cancel, h]

/-- The pieces a step other than a reset may change in Halted: timers, keys and the schedule (R208, R216). -/
def Piece.changesInHalted (p : Piece) : Prop := p = .dt ∨ p = .st ∨ p = .schedule ∨ ∃ k, p = .key k

/-- Settles O52: the engine has no turn in Halted, a KeyPress and a Cancel do nothing there, and a tick and a key write
touch the timers and one key. -/
theorem haltedIsAbsorbing : Obligations.HaltedIsAbsorbing := by
  intro s t c hc h hno
  obtain ⟨rest, hmove⟩ := step_move_cases h hno
  have hrest : Frame Piece.changesInHalted s { s with schedule := rest } :=
    (frame_schedule s rest).mono fun p hp => .inr (.inr (.inl (List.mem_singleton.mp hp)))
  obtain ⟨⟨hrun, -⟩, -⟩ | rfl | ⟨k, d, rfl⟩ | ⟨k, rfl⟩ | rfl := hmove
  · cases hrun.symm.trans hc
  · refine hrest.trans_same ((frame_tick _).mono fun p hp => ?_)
    obtain rfl | rfl : p = .dt ∨ p = .st := by simpa [only] using hp
    · exact .inl rfl
    · exact .inr (.inl rfl)
  · exact hrest.trans_same ((frame_setKey _ k d).mono fun p hp => .inr (.inr (.inr ⟨k, List.mem_singleton.mp hp⟩)))
  · rwa [keyPress_of_halted (s := { s with schedule := rest }) hc]
  · rwa [cancel_of_halted (s := { s with schedule := rest }) hc]

end Sys2Proof.Machine

/-! Reset with a ROM image, and the jump to itself that ends a program (spec/70_reset_and_hazards.md). -/

namespace Sys2Proof.Machine

/-! ### The jump to itself -/

/-- A jump to the address it stands at loads PC with what PC held before the advance (R101, R251). -/
theorem cycle_of_atSelfJump {s : State} (h : atSelfJump s) : cycle s = .next s := by
  obtain ⟨-, nnn, hdecode, hpc⟩ := h
  have hjump : cycle s = .next { s with pc := zextAddr nnn } := by rw [cycle, hdecode]; rfl
  rw [hjump, ← hpc]

/-- Settles O58: the step is a cycle with the schedule moved on, and the cycle changes nothing. -/
theorem selfJumpChangesNothing : Obligations.SelfJumpChangesNothing := by
  intro s hjump hturn
  have hleft : atSelfJump { s with schedule := s.schedule.tail } := hjump
  exact ⟨_, (step_of_engineTurn hturn).trans (cycle_of_atSelfJump hleft), rfl, frame_schedule s _⟩

/-! ### Which images a reset accepts -/

theorem romWellFormed_iff (rom : List Byte) : romWellFormed rom = true ↔ rom.length ≤ 3584 := decide_eq_true_iff

section
variable {rom : List Byte} {s : State} {rest : List Move}

/-- A scheduled reset with an image that fits boots the machine with the schedule that is left (R240). -/
theorem step_of_reset (hs : s.schedule = .reset rom :: rest) (hfits : romWellFormed rom = true) :
    step s = .next ({ s with schedule := rest }.boot rom) :=
  (step_of_head hs).trans (if_pos hfits)

/-- A scheduled reset with an image that does not fit gives no machine (R205, R241). -/
theorem step_of_reset_of_not_fits (hs : s.schedule = .reset rom :: rest) (hno : ¬ romWellFormed rom = true) :
    step s = .refused .loadFailure :=
  (step_of_head hs).trans (if_neg hno)

end

/-- Settles O49: an image above 3584 bytes does not fit. -/
theorem oversizedRomIsRefused : Obligations.OversizedRomIsRefused :=
  fun rom _ _ hs hlen => step_of_reset_of_not_fits hs fun hfits => ((romWellFormed_iff rom).mp hfits).not_gt hlen

/-! ### Memory after a reset -/

section
variable (font : Vector Byte 80) (rom : List Byte)

/-- Byte k of the image stands at 512 + k (R241). -/
theorem bootMemory_read_image {k : Nat} {b : Byte} (h : rom[k]? = some b) :
    (bootMemory font rom).read (512 + k) = b := by
  obtain ⟨hk, hb⟩ := List.getElem?_eq_some_iff.mp h
  have hin : Config.romBase ≤ 512 + k ∧ 512 + k < Config.romBase + rom.length := by
    rw [Config.romBase]; omega
  rw [bootMemory, Memory.loadImage_read, dif_pos hin]
  simpa only [Config.romBase, Nat.add_sub_cancel_left] using hb

/-- Outside the image memory is what it was before the load: FONT at 0..79, zero elsewhere (R240). -/
theorem bootMemory_read_outside {a : Nat} (h : a < 512 ∨ 512 + rom.length ≤ a) :
    (bootMemory font rom).read a = if ha : a < 80 then font[a] else 0#8 := by
  have hout : ¬ (Config.romBase ≤ a ∧ a < Config.romBase + rom.length) := by
    rw [Config.romBase]; omega
  rw [bootMemory, Memory.loadImage_read, dif_neg hout]
  rfl

theorem bootMemory_read_font {a : Nat} (ha : a < 80) : (bootMemory font rom).read a = font[a] :=
  (bootMemory_read_outside font rom (.inl (by omega))).trans (dif_pos ha)

theorem bootMemory_read_zero {a : Nat} (ha : 80 ≤ a) (h : a < 512 ∨ 512 + rom.length ≤ a) :
    (bootMemory font rom).read a = 0#8 :=
  (bootMemory_read_outside font rom h).trans (dif_neg (by omega))

end

/-! ### The other pieces after a reset -/

section
variable (s : State) (rom : List Byte)

@[simp] theorem State.boot_reg (x : Nibble) : (s.boot rom).reg x = 0#8 := Vector.getElem_replicate ..

@[simp] theorem State.boot_slot (k : Nibble) : (s.boot rom).slot k = 0#16 := Vector.getElem_replicate ..

@[simp] theorem State.boot_key (k : Nibble) : (s.boot rom).key k = false := Vector.getElem_replicate ..

@[simp] theorem State.boot_cell (x : Fin 64) (y : Fin 32) : (s.boot rom).fb.cell x y = false :=
  Framebuffer.cell_blank x y

@[simp] theorem State.boot_font : (s.boot rom).mem.font = s.mem.font := Memory.loadImage_font ..

end

/-- Settles O48: the image fits, so the step boots the machine; memory holds the image over the reset contents, and the
other pieces are those of the reset state or the model's own records. -/
theorem resetLoadsTheRom : Obligations.ResetLoadsTheRom := by
  intro rom s rest hs hlen
  have hstep : step s = .next ({ s with schedule := rest }.boot rom) :=
    step_of_reset hs ((romWellFormed_iff rom).mpr hlen)
  exact ⟨_, hstep, rfl, fun _ _ => bootMemory_read_image s.mem.font rom, fun _ => bootMemory_read_font s.mem.font rom,
    fun _ => bootMemory_read_zero s.mem.font rom, rfl, rfl, rfl, State.boot_reg _ rom, rfl, rfl, State.boot_slot _ rom,
    rfl, rfl, State.boot_key _ rom, State.boot_cell _ rom, State.boot_font _ rom, rfl, rfl⟩

end Sys2Proof.Machine
